-- ==== Sys2Proof/Word.lean ====
section
/-! DEFINITION. The word types of the CHIP-8 core: the widths spec/10_state.md and spec/30_encoding.md give.
Every quantity of this hardware is unsigned (R6); wrapping arithmetic is that of `BitVec`. -/

namespace Sys2Proof

/-- One memory cell, one register `V[i]`, one timer: 8 bits (R10, R18, R19, R30). -/
abbrev Byte := BitVec 8

/-- An instruction word, `I`, `PC`, `IR` and a stack slot: 16 bits (R12, R13, R15, R24, R45). -/
abbrev Word := BitVec 16

/-- The address operand `nnn`: 12 bits (R47). -/
abbrev Addr := BitVec 12

/-- A register number `x` or `y`, a sprite height `n`, or an ignored nibble of a word: 4 bits (R47). -/
abbrev Nibble := BitVec 4

end Sys2Proof
end

