-- ==== Sys2Proof/Syntax.lean ====
section
/-! DEFINITION. The instructions: one constructor per row of spec/opcode_table.json (R52), in the table's order.
`x`, `y`, `n`, `kk`, `nnn` are the operand fields of R47. A nibble `z` is one the decoder ignores (R50, R51): it is
kept so that decoding loses no bit, and no meaning reads it. `y` of SHR and SHL is a field the operation ignores
(R88, R90). -/

namespace Sys2Proof

inductive Instr where
  /-- `0?E0` CLS (R110). -/
  | cls (z : Nibble)
  /-- `0?EE` RET (R73). -/
  | ret (z : Nibble)
  /-- `1nnn` JP nnn (R70). -/
  | jp (nnn : Addr)
  /-- `2nnn` CALL nnn (R72). -/
  | call (nnn : Addr)
  /-- `3xkk` SE Vx, kk (R74). -/
  | seImm (x : Nibble) (kk : Byte)
  /-- `4xkk` SNE Vx, kk (R75). -/
  | sneImm (x : Nibble) (kk : Byte)
  /-- `5xy?` SE Vx, Vy (R76). -/
  | seReg (x y z : Nibble)
  /-- `6xkk` LD Vx, kk (R80). -/
  | ldImm (x : Nibble) (kk : Byte)
  /-- `7xkk` ADD Vx, kk (R81). -/
  | addImm (x : Nibble) (kk : Byte)
  /-- `8xy0` LD Vx, Vy (R82). -/
  | ldReg (x y : Nibble)
  /-- `8xy1` OR Vx, Vy (R83). -/
  | orReg (x y : Nibble)
  /-- `8xy2` AND Vx, Vy (R84). -/
  | andReg (x y : Nibble)
  /-- `8xy3` XOR Vx, Vy (R85). -/
  | xorReg (x y : Nibble)
  /-- `8xy4` ADD Vx, Vy (R86). -/
  | addReg (x y : Nibble)
  /-- `8xy5` SUB Vx, Vy (R87). -/
  | sub (x y : Nibble)
  /-- `8xy6` SHR Vx (R88). -/
  | shr (x y : Nibble)
  /-- `8xy7` SUBN Vx, Vy (R89). -/
  | subn (x y : Nibble)
  /-- `8xyE` SHL Vx (R90). -/
  | shl (x y : Nibble)
  /-- `9xy?` SNE Vx, Vy (R77). -/
  | sneReg (x y z : Nibble)
  /-- `Annn` LD I, nnn (R93). -/
  | ldI (nnn : Addr)
  /-- `Bnnn` JP V0, nnn (R71). -/
  | jpV0 (nnn : Addr)
  /-- `Cxkk` RND Vx, kk (R116). -/
  | rnd (x : Nibble) (kk : Byte)
  /-- `Dxyn` DRW Vx, Vy, n (R111). -/
  | drw (x y n : Nibble)
  /-- `Ex9E` SKP Vx (R105). -/
  | skp (x : Nibble)
  /-- `ExA1` SKNP Vx (R106). -/
  | sknp (x : Nibble)
  /-- `Fx07` LD Vx, DT (R100). -/
  | ldVxDt (x : Nibble)
  /-- `Fx0A` LD Vx, K (R107). -/
  | ldVxK (x : Nibble)
  /-- `Fx15` LD DT, Vx (R101). -/
  | ldDtVx (x : Nibble)
  /-- `Fx18` LD ST, Vx (R102). -/
  | ldStVx (x : Nibble)
  /-- `Fx1E` ADD I, Vx (R94). -/
  | addI (x : Nibble)
  /-- `Fx29` LD F, Vx (R95). -/
  | ldF (x : Nibble)
  /-- `Fx33` LD B, Vx (R96). -/
  | ldB (x : Nibble)
  /-- `Fx55` LD [I], Vx (R97). -/
  | ldMemVx (x : Nibble)
  /-- `Fx65` LD Vx, [I] (R98). -/
  | ldVxMem (x : Nibble)
  deriving DecidableEq, Repr

end Sys2Proof
end

