-- ==== Sys2Proof/WellFormed.lean ====
section
/-! DEFINITION. Well-formed instructions: those whose encoding is canonical (R50, R51, U2).
Field widths are in the types of Sys2Proof/Syntax.lean, so what is left to check is that an ignored nibble is 0.
The check refuses nothing at run time: a non-canonical word is the named operation and runs (R50, R51). -/

namespace Sys2Proof

/-- The instruction's word is the canonical one: every ignored nibble of CLS, RET, SE Vx,Vy and SNE Vx,Vy is 0. -/
def Instr.wellFormed : Instr → Bool
  | .cls z => z == 0
  | .ret z => z == 0
  | .seReg _ _ z => z == 0
  | .sneReg _ _ z => z == 0
  | .jp _ | .call _ | .seImm _ _ | .sneImm _ _ | .ldImm _ _ | .addImm _ _ | .ldReg _ _ | .orReg _ _
  | .andReg _ _ | .xorReg _ _ | .addReg _ _ | .sub _ _ | .shr _ _ | .subn _ _ | .shl _ _ | .ldI _
  | .jpV0 _ | .rnd _ _ | .drw _ _ _ | .skp _ | .sknp _ | .ldVxDt _ | .ldVxK _ | .ldDtVx _
  | .ldStVx _ | .addI _ | .ldF _ | .ldB _ | .ldMemVx _ | .ldVxMem _ => true

end Sys2Proof
end

