-- ==== Sys2Proof/Decode.lean ====
section
/-! DEFINITION. The decoder (R47 to R54, R62), the opcode map (R52) and the encoder.
The code points are the standard CHIP-8 assignment that R52 gives (notes/assumptions/8.md). -/

namespace Sys2Proof

/-- `op = IR[15:12]`, the first dispatch key (R47, R49). -/
def opField (w : Word) : Nibble := w.extractLsb' 12 4

/-- `x = IR[11:8]` (R47); also the nibble group 0x0 ignores (R50). -/
def xField (w : Word) : Nibble := w.extractLsb' 8 4

/-- `y = IR[7:4]` (R47). -/
def yField (w : Word) : Nibble := w.extractLsb' 4 4

/-- `n = IR[3:0]` (R47); the second key of group 0x8, and the nibble groups 0x5 and 0x9 ignore (R50, R51). -/
def nField (w : Word) : Nibble := w.extractLsb' 0 4

/-- `kk = IR[7:0]` (R47); the second key of groups 0x0, 0xE and 0xF (R50). -/
def kkField (w : Word) : Byte := w.extractLsb' 0 8

/-- `nnn = IR[11:0]` (R47). -/
def nnnField (w : Word) : Addr := w.extractLsb' 0 12

/-- Group 0x0: the second key is the low byte; bits 11:8 are ignored (R50). -/
def decodeGroup0 (w : Word) : Option Instr :=
  if kkField w = 0xE0 then some (.cls (xField w))
  else if kkField w = 0xEE then some (.ret (xField w))
  else none

/-- Group 0x8: the second key is the low nibble (R50). -/
def decodeGroup8 (w : Word) : Option Instr :=
  if nField w = 0x0 then some (.ldReg (xField w) (yField w))
  else if nField w = 0x1 then some (.orReg (xField w) (yField w))
  else if nField w = 0x2 then some (.andReg (xField w) (yField w))
  else if nField w = 0x3 then some (.xorReg (xField w) (yField w))
  else if nField w = 0x4 then some (.addReg (xField w) (yField w))
  else if nField w = 0x5 then some (.sub (xField w) (yField w))
  else if nField w = 0x6 then some (.shr (xField w) (yField w))
  else if nField w = 0x7 then some (.subn (xField w) (yField w))
  else if nField w = 0xE then some (.shl (xField w) (yField w))
  else none

/-- Group 0xE: the second key is the low byte (R50). -/
def decodeGroupE (w : Word) : Option Instr :=
  if kkField w = 0x9E then some (.skp (xField w))
  else if kkField w = 0xA1 then some (.sknp (xField w))
  else none

/-- Group 0xF: the second key is the low byte (R50). -/
def decodeGroupF (w : Word) : Option Instr :=
  if kkField w = 0x07 then some (.ldVxDt (xField w))
  else if kkField w = 0x0A then some (.ldVxK (xField w))
  else if kkField w = 0x15 then some (.ldDtVx (xField w))
  else if kkField w = 0x18 then some (.ldStVx (xField w))
  else if kkField w = 0x1E then some (.addI (xField w))
  else if kkField w = 0x29 then some (.ldF (xField w))
  else if kkField w = 0x33 then some (.ldB (xField w))
  else if kkField w = 0x55 then some (.ldMemVx (xField w))
  else if kkField w = 0x65 then some (.ldVxMem (xField w))
  else none

/-- `Decode(IR)` (R62): the first level of the table of R49, by the high nibble. `none` is `Unknown`, the words
of R54. The last branch is `op = 0xF`, the only value left. -/
def decodeWord (w : Word) : Option Instr :=
  if opField w = 0x0 then decodeGroup0 w
  else if opField w = 0x1 then some (.jp (nnnField w))
  else if opField w = 0x2 then some (.call (nnnField w))
  else if opField w = 0x3 then some (.seImm (xField w) (kkField w))
  else if opField w = 0x4 then some (.sneImm (xField w) (kkField w))
  else if opField w = 0x5 then some (.seReg (xField w) (yField w) (nField w))
  else if opField w = 0x6 then some (.ldImm (xField w) (kkField w))
  else if opField w = 0x7 then some (.addImm (xField w) (kkField w))
  else if opField w = 0x8 then decodeGroup8 w
  else if opField w = 0x9 then some (.sneReg (xField w) (yField w) (nField w))
  else if opField w = 0xA then some (.ldI (nnnField w))
  else if opField w = 0xB then some (.jpV0 (nnnField w))
  else if opField w = 0xC then some (.rnd (xField w) (kkField w))
  else if opField w = 0xD then some (.drw (xField w) (yField w) (nField w))
  else if opField w = 0xE then decodeGroupE w
  else decodeGroupF w

/-- Why a byte string holds no instruction. -/
inductive DecodeError where
  /-- Fewer than two bytes are left: no instruction word (R45). -/
  | truncated
  /-- The word matches no row of the opcode map (R54); the step reports it (R55). -/
  | unknownOpcode (w : Word)
  deriving DecidableEq, Repr

/-- The instruction word of two bytes, high byte first (R32, R45). -/
def wordOfBytes (hi lo : Byte) : Word := hi ++ lo

/-- The high byte of a word, the one at the lower address (R32). -/
def highByte (w : Word) : Byte := w.extractLsb' 8 8

/-- The low byte of a word (R32). -/
def lowByte (w : Word) : Byte := w.extractLsb' 0 8

/-- The decoder on bytes as they stand in memory: the instruction and the bytes after it. -/
def decode : List Byte → Except DecodeError (Instr × List Byte)
  | hi :: lo :: rest =>
    match decodeWord (wordOfBytes hi lo) with
    | some i => .ok (i, rest)
    | none => .error (.unknownOpcode (wordOfBytes hi lo))
  | _ => .error .truncated

/-- The host's view of the decoder: `w`'s bits are numbered as spec/opcode_table.json numbers them, bits from
`nbits` up are 0, and the two bytes are laid out high byte first. -/
def decodeTableWord (nbits w : Nat) : Option Instr :=
  let word := BitVec.ofNat 16 (w % 2 ^ nbits)
  match decode [highByte word, lowByte word] with
  | .ok (i, _) => some i
  | .error _ => none

/-- `Z8` and `X8` words: `op`, a nibble, the second key `sub8` (R46). -/
def encX8 (op x : Nibble) (sub8 : Byte) : Word := (op ++ x ++ sub8 : BitVec (4 + 4 + 8))

/-- `NNN` words: `op` and the address operand (R46). -/
def encNnn (op : Nibble) (nnn : Addr) : Word := (op ++ nnn : BitVec (4 + 12))

/-- `XY4` and `XYN` words: `op`, `x`, `y` and the low nibble (R46). -/
def encXyn (op x y n : Nibble) : Word := (op ++ x ++ y ++ n : BitVec (4 + 4 + 4 + 4))

/-- The word of an instruction, written from the pattern column of R52. -/
def encode : Instr → Word
  | .cls z => encX8 0x0 z 0xE0
  | .ret z => encX8 0x0 z 0xEE
  | .jp nnn => encNnn 0x1 nnn
  | .call nnn => encNnn 0x2 nnn
  | .seImm x kk => encX8 0x3 x kk
  | .sneImm x kk => encX8 0x4 x kk
  | .seReg x y z => encXyn 0x5 x y z
  | .ldImm x kk => encX8 0x6 x kk
  | .addImm x kk => encX8 0x7 x kk
  | .ldReg x y => encXyn 0x8 x y 0x0
  | .orReg x y => encXyn 0x8 x y 0x1
  | .andReg x y => encXyn 0x8 x y 0x2
  | .xorReg x y => encXyn 0x8 x y 0x3
  | .addReg x y => encXyn 0x8 x y 0x4
  | .sub x y => encXyn 0x8 x y 0x5
  | .shr x y => encXyn 0x8 x y 0x6
  | .subn x y => encXyn 0x8 x y 0x7
  | .shl x y => encXyn 0x8 x y 0xE
  | .sneReg x y z => encXyn 0x9 x y z
  | .ldI nnn => encNnn 0xA nnn
  | .jpV0 nnn => encNnn 0xB nnn
  | .rnd x kk => encX8 0xC x kk
  | .drw x y n => encXyn 0xD x y n
  | .skp x => encX8 0xE x 0x9E
  | .sknp x => encX8 0xE x 0xA1
  | .ldVxDt x => encX8 0xF x 0x07
  | .ldVxK x => encX8 0xF x 0x0A
  | .ldDtVx x => encX8 0xF x 0x15
  | .ldStVx x => encX8 0xF x 0x18
  | .addI x => encX8 0xF x 0x1E
  | .ldF x => encX8 0xF x 0x29
  | .ldB x => encX8 0xF x 0x33
  | .ldMemVx x => encX8 0xF x 0x55
  | .ldVxMem x => encX8 0xF x 0x65

/-- The bytes of an instruction as they stand in memory: high byte first (R32, R45). -/
def encodeBytes (i : Instr) : List Byte := [highByte (encode i), lowByte (encode i)]

/-- `mask` of an instruction's row in R52: which bits of the word select it. -/
def rowMask : Instr → Word
  | .cls _ | .ret _ | .skp _ | .sknp _ | .ldVxDt _ | .ldVxK _ | .ldDtVx _ | .ldStVx _ | .addI _
  | .ldF _ | .ldB _ | .ldMemVx _ | .ldVxMem _ => 0xF0FF
  | .ldReg _ _ | .orReg _ _ | .andReg _ _ | .xorReg _ _ | .addReg _ _ | .sub _ _ | .shr _ _
  | .subn _ _ | .shl _ _ => 0xF00F
  | .jp _ | .call _ | .seImm _ _ | .sneImm _ _ | .seReg _ _ _ | .ldImm _ _ | .addImm _ _
  | .sneReg _ _ _ | .ldI _ | .jpV0 _ | .rnd _ _ | .drw _ _ _ => 0xF000

/-- `match` of an instruction's row in R52: what those bits hold. -/
def rowMatch : Instr → Word
  | .cls _ => 0x00E0
  | .ret _ => 0x00EE
  | .jp _ => 0x1000
  | .call _ => 0x2000
  | .seImm _ _ => 0x3000
  | .sneImm _ _ => 0x4000
  | .seReg _ _ _ => 0x5000
  | .ldImm _ _ => 0x6000
  | .addImm _ _ => 0x7000
  | .ldReg _ _ => 0x8000
  | .orReg _ _ => 0x8001
  | .andReg _ _ => 0x8002
  | .xorReg _ _ => 0x8003
  | .addReg _ _ => 0x8004
  | .sub _ _ => 0x8005
  | .shr _ _ => 0x8006
  | .subn _ _ => 0x8007
  | .shl _ _ => 0x800E
  | .sneReg _ _ _ => 0x9000
  | .ldI _ => 0xA000
  | .jpV0 _ => 0xB000
  | .rnd _ _ => 0xC000
  | .drw _ _ _ => 0xD000
  | .skp _ => 0xE09E
  | .sknp _ => 0xE0A1
  | .ldVxDt _ => 0xF007
  | .ldVxK _ => 0xF00A
  | .ldDtVx _ => 0xF015
  | .ldStVx _ => 0xF018
  | .addI _ => 0xF01E
  | .ldF _ => 0xF029
  | .ldB _ => 0xF033
  | .ldMemVx _ => 0xF055
  | .ldVxMem _ => 0xF065

end Sys2Proof
end

