-- ==== Sys2Proof/Config.lean ====
section
/-! DEFINITION. What an implementation fixes, and the one free value.
The record `Config` holds the four named parameters of R5; the values this model runs with are
`Sys2Proof.Machine.params` in Machine/Params.lean. -/

namespace Sys2Proof

/-- `VF_ORDER` (R91, D16): which of the two writes of a flag-writing operation comes last. It can be seen only
when the destination register is `VF` itself. -/
inductive VfOrder where
  /-- The result is written first, then the flag: `VF` keeps the flag. The spec's default. -/
  | flagLast
  /-- The flag is written first, then the result: `VF` keeps the arithmetic result. -/
  | resultLast
  deriving DecidableEq, Repr

/-- The four named parameters of R5. -/
structure Config where
  /-- `FONT`: the 80 glyph bytes at addresses 0..79 (R143, D23). -/
  font : List Byte
  /-- `UNKNOWN_PC_INC`: what an unknown word adds to `PC` (R55, D7). -/
  unknownPcInc : Word
  /-- `RET_ADJUST`: what RET adds to the popped address (R73, D15). -/
  retAdjust : Word
  /-- `VF_ORDER` (R91, D16). -/
  vfOrder : VfOrder
  deriving DecidableEq, Repr

/-- The random byte `rnd` of the step (R115, D3): a FREE VALUE, one byte for every draw, under no law. It has no
body, so no proof can know it; `State.draws` numbers the draws (notes/assumptions/3.md). -/
opaque Config.rnd : Nat → Byte

end Sys2Proof
end

