-- ==== Sys2Proof/Machine/Params.lean ====
section
/-! DEFINITION. The fixed sizes of R5 and the values of the four named parameters this model runs with. -/

namespace Sys2Proof.Machine

/-- `MEM_SIZE` (R5, R30). -/
abbrev memSize : Nat := 4096

/-- `FONT_BASE` (R5). -/
abbrev fontBase : Nat := 0

/-- `FONT_SIZE` (R5). -/
abbrev fontSize : Nat := 80

/-- `PROG_BASE` (R5, R39). -/
abbrev progBase : Nat := 512

/-- `PROG_MAX`, the largest program image (R5, R141). -/
abbrev progMax : Nat := 3584

/-- `NKEYS` (R5). -/
abbrev keyCount : Nat := 16

/-- The default `FONT`: the glyph of digit `d` at `5*d`, top row first (R143; notes/assumptions/7.md). -/
def defaultFont : List Byte :=
  [0xF0, 0x90, 0x90, 0x90, 0xF0, 0x20, 0x60, 0x20, 0x20, 0x70] ++
  [0xF0, 0x10, 0xF0, 0x80, 0xF0, 0xF0, 0x10, 0xF0, 0x10, 0xF0] ++
  [0x90, 0x90, 0xF0, 0x10, 0x10, 0xF0, 0x80, 0xF0, 0x10, 0xF0] ++
  [0xF0, 0x80, 0xF0, 0x90, 0xF0, 0xF0, 0x10, 0x20, 0x40, 0x40] ++
  [0xF0, 0x90, 0xF0, 0x90, 0xF0, 0xF0, 0x90, 0xF0, 0x10, 0xF0] ++
  [0xF0, 0x90, 0xF0, 0x90, 0x90, 0xE0, 0x90, 0xE0, 0x90, 0xE0] ++
  [0xF0, 0x80, 0x80, 0x80, 0xF0, 0xE0, 0x90, 0x90, 0x90, 0xE0] ++
  [0xF0, 0x80, 0xF0, 0x80, 0xF0, 0xF0, 0x80, 0xF0, 0x80, 0x80]

/-- The parameters, each at the default R5 states for it (notes/assumptions/4.md to 7.md). -/
def params : Config where
  font := defaultFont
  unknownPcInc := 2
  retAdjust := 2
  vfOrder := .flagLast

end Sys2Proof.Machine
end

