-- ==== Sys2Proof/Machine/State.lean ====
section
/-! DEFINITION. The state of the core as plain data: every register and storage of spec/10_state.md and
spec/20_memory.md, its value after reset (R29, R140), and the reasons a step can stop. -/

namespace Sys2Proof.Machine

/-- The fatal errors a step can raise (R120). Taking one is a next state whose `status` is `halted` (R65, R124). -/
inductive FatalError where
  /-- Raised by the fetch phase when `PC + 1 >= 4096` (R61). -/
  | programCounterOutOfBounds
  /-- Raised by CALL when `SP = 16` (R72). -/
  | stackOverflow
  /-- Raised by RET when `SP = 0` (R73). -/
  | stackUnderflow
  /-- Raised by LD B, LD [I], LD Vx,[I] and DRW when the access runs past address 4095 (R37). -/
  | memoryOutOfBounds
  /-- Raised by SKP and SKNP when `V[x] >= 16` (R105, R106). -/
  | keyIndexOutOfRange
  deriving DecidableEq, Repr

/-- `STATUS` (R25). -/
inductive Status where
  /-- Steps are enabled (R66). -/
  | running
  /-- The run is over until reset (R66, R127). -/
  | halted (e : FatalError)
  deriving DecidableEq, Repr

/-- `FB[px][py]`: 64 columns of 32 one-bit pixels, `true` is on (R20). -/
abbrev Framebuffer := Vector (Vector Bool 32) 64

/-- `MEM` as cells (address, byte): strictly rising addresses, none equal to the reset byte of its address. -/
abbrev Memory := List Host.Cell

/-- All state of the block (R26), one instance per program. -/
structure State where
  /-- `V[0]`..`V[15]`; `V[15]` is the flag register `VF` (R10, R11). -/
  v : Vector Byte 16
  /-- `I`, the index register (R12). -/
  i : Word
  /-- `PC`: during execution the address of the instruction itself (R13). -/
  pc : Word
  /-- `SP`: the number of valid stack entries and the next slot a push writes (R16). -/
  sp : BitVec 5
  /-- `STACK[0]`..`STACK[15]`, return addresses (R15). -/
  stack : Vector Word 16
  /-- `DT`, the delay timer (R18). -/
  dt : Byte
  /-- `ST`, the sound timer (R19). -/
  st : Byte
  /-- `FB`, the framebuffer (R20). -/
  fb : Framebuffer
  /-- `KEYS[0]`..`KEYS[15]`, the momentary key latches (R22). -/
  keys : Vector Bool 16
  /-- `IR`, the last word fetched (R24). -/
  ir : Word
  /-- `STATUS`, the run status (R25). -/
  status : Status
  /-- `MEM`, 4096 bytes (R30). -/
  mem : Memory
  /-- The MODEL's own field: how many random bytes have been drawn. It numbers the free values `Config.rnd`
  and is no state of the spec (notes/assumptions/3.md). -/
  draws : Nat
  deriving DecidableEq, Repr

/-- Why a step stops with `Host.Outcome.fault`. The spec's own fatal errors are `FatalError`, taken as next states. -/
inductive Fault where
  /-- Raised by the push of CALL and the pop of RET when `SP` is 17..31, values that never occur (R16): the slot
  does not exist. SAFE: no state that keeps the invariant of R27 (b) reaches it (notes/assumptions/10.md). -/
  | stackPointerIllegal
  deriving DecidableEq, Repr

/-- Why a step refuses an instruction. -/
inductive Refusal where
  /-- Answered only by an arm of `exec` that has no meaning yet. SAFE: nothing is claimed of the instruction.
  No arm of this model answers it. -/
  | notModelled (mnemonic : String)
  deriving DecidableEq, Repr

/-- What a meaning answers. -/
abbrev Out := Host.Outcome State Fault Refusal

/-- The machine right after reset with a program image of length 0 (R29, R140, R141). Memory lists nothing: an
unlisted address reads as its reset byte, the font at 0..79 and zero elsewhere (R39). -/
def State.reset : State where
  v := Vector.replicate 16 0
  i := 0
  pc := 512
  sp := 0
  stack := Vector.replicate 16 0
  dt := 0
  st := 0
  fb := Vector.replicate 64 (Vector.replicate 32 false)
  keys := Vector.replicate 16 false
  ir := 0
  status := .running
  mem := []
  draws := 0

end Sys2Proof.Machine
end

