-- ==== Sys2Proof/Machine/Ops.lean ====
section
/-! DEFINITION. The named operations over registers, memory, stack and framebuffer, and taking a fatal error.
Meanings change the state only through these. -/

namespace Sys2Proof.Machine

/-! ### Registers -/

/-- `V[x]` (R8, R10). -/
def State.reg (s : State) (x : Nibble) : Byte := s.v[x.toNat]

/-- `V[x] <- val` (R8, R10): no register is hard-wired. -/
def State.setReg (s : State) (x : Nibble) (val : Byte) : State := { s with v := s.v.set x.toNat val }

/-- The number of the flag register `VF` (R11). -/
def vf : Nibble := 0xF

/-- `I <- val`. -/
def State.setI (s : State) (val : Word) : State := { s with i := val }

/-- `PC <- val`. -/
def State.setPc (s : State) (val : Word) : State := { s with pc := val }

/-- `PC <- PC + 2`, the ordinary advance (R14, R63). -/
def State.advance (s : State) : State := s.setPc (s.pc + 2)

/-- The end of a conditional skip: `PC + 4` when the condition holds, else `PC + 2` (R14). -/
def State.skipIf (s : State) (c : Bool) : State := if c then s.setPc (s.pc + 4) else s.setPc (s.pc + 2)

/-- `DT <- val`. -/
def State.setDt (s : State) (val : Byte) : State := { s with dt := val }

/-- `ST <- val`. -/
def State.setSt (s : State) (val : Byte) : State := { s with st := val }

/-- `KEYS <- val`, all 16 latches. -/
def State.setKeys (s : State) (val : Vector Bool 16) : State := { s with keys := val }

/-- `FB <- val`. -/
def State.setFb (s : State) (val : Framebuffer) : State := { s with fb := val }

/-- `IR <- val` (R24). -/
def State.setIr (s : State) (val : Word) : State := { s with ir := val }

/-- `STATUS <- val` (R25). -/
def State.setStatus (s : State) (val : Status) : State := { s with status := val }

/-- `MEM <- val`. -/
def State.setMem (s : State) (val : Memory) : State := { s with mem := val }

/-- `V <- val`, all 16 registers. -/
def State.setRegs (s : State) (val : Vector Byte 16) : State := { s with v := val }

/-- The next draw of the random source: the model's counter moves on (R115, notes/assumptions/3.md). -/
def State.drawn (s : State) : State := { s with draws := s.draws + 1 }

/-! ### Taking a fatal error -/

/-- `raise E` (R65, R124): the step writes `STATUS <- Halted(E)` and nothing else, a next state. -/
def raise (e : FatalError) (s : State) : Out := .next (s.setStatus (.halted e))

/-! ### Memory -/

/-- The byte an address holds after reset with no program: the font at 0..79, zero elsewhere (R39, R140). It is
what an unlisted address of `Memory` reads as. -/
def resetByte (a : Nat) : Byte := if a < fontSize then params.font.getD (a - fontBase) 0 else 0

/-- `MEM[a]` (R8). -/
def Memory.read : Memory → Nat → Byte
  | [], a => resetByte a
  | (b, w) :: m, a => if b = a then w else Memory.read m a

/-- The cell to list for a byte at `a`: none when it equals the reset byte. -/
def cellOf (a : Nat) (val : Byte) : Memory := if val = resetByte a then [] else [(a, val)]

/-- `MemWrite(a, 1, val)` (R8): changes only the addressed byte (R36), and keeps the cells rising and minimal. -/
def Memory.write : Memory → Nat → Byte → Memory
  | [], a, val => cellOf a val
  | (b, w) :: m, a, val =>
    if a < b then cellOf a val ++ (b, w) :: m
    else if a = b then cellOf a val ++ m
    else (b, w) :: Memory.write m a val

/-- `MemRead(a + i, 1)` for `i` in `0..n-1`, ascending (R33). -/
def Memory.readBytes (m : Memory) (a : Nat) : Nat → List Byte
  | 0 => []
  | n + 1 => m.read a :: Memory.readBytes m (a + 1) n

/-- `MemWrite(a + i, 1, bs[i])` for each byte, ascending (R33). -/
def Memory.writeBytes (m : Memory) (a : Nat) : List Byte → Memory
  | [] => m
  | b :: bs => Memory.writeBytes (m.write a b) (a + 1) bs

/-- The canonical form from address `lo` up: every cell at `lo` or above and below 4096, strictly rising, and not
equal to the reset byte of its address. -/
def Memory.wfFrom : Nat → Memory → Bool
  | _, [] => true
  | lo, (a, w) :: m => decide (lo ≤ a) && decide (a < memSize) && decide (w ≠ resetByte a) && Memory.wfFrom (a + 1) m

/-- The canonical form of memory: equal memories are equal lists. -/
def Memory.wf (m : Memory) : Bool := Memory.wfFrom 0 m

/-- Whether an access of `len` bytes at `I` stays inside memory: not `I + len > 4096`, in unbounded arithmetic (R37). -/
def accessFits (s : State) (len : Nat) : Bool := decide (s.i.toNat + len ≤ memSize)

/-- The bounds check of a data access, made before anything is written (R36, R37). -/
def withAccess (s : State) (len : Nat) (k : State → Out) : Out :=
  if accessFits s len then k s else raise .memoryOutOfBounds s

/-! ### The return-address stack -/

/-- `STACK[SP] <- val; SP <- SP + 1` (R17). -/
def State.pushed (s : State) (val : Word) (h : s.sp.toNat < 16) : State :=
  { s with stack := s.stack.set s.sp.toNat val, sp := s.sp + 1 }

/-- `SP <- SP - 1` (R17): the slot keeps its contents. -/
def State.popped (s : State) : State := { s with sp := s.sp - 1 }

/-- `Push(val)` (R17), then the rest of the instruction. The check comes first and a raise writes nothing. -/
def pushThen (val : Word) (s : State) (k : State → Out) : Out :=
  if s.sp = 16 then raise .stackOverflow s
  else if h : s.sp.toNat < 16 then k (s.pushed val h)
  else .fault .stackPointerIllegal

/-- `Pop()` (R17), then the rest of the instruction. The popped slot keeps its contents. -/
def popThen (s : State) (k : Word → State → Out) : Out :=
  if s.sp = 0 then raise .stackUnderflow s
  else if h : s.sp.toNat - 1 < 16 then k s.stack[s.sp.toNat - 1] s.popped
  else .fault .stackPointerIllegal

/-! ### The framebuffer -/

/-- `FB[px][py]` (R8, R20). -/
def Framebuffer.pixel (fb : Framebuffer) (px : Fin 64) (py : Fin 32) : Bool := fb[px][py]

/-- `FB[px][py] <- FB[px][py] ^ 1`. -/
def Framebuffer.toggle (fb : Framebuffer) (px : Fin 64) (py : Fin 32) : Framebuffer :=
  fb.set px (fb[px].set py (!fb[px][py]))

/-- Every pixel off (R29, R110). -/
def Framebuffer.blank : Framebuffer := Vector.replicate 64 (Vector.replicate 32 false)

/-- One sprite bit of DRW onto `(fb, collision)`: a 0 bit leaves the pixel alone, a 1 bit toggles it and sets the
collision mark if it was on (R111). -/
def drawBit (acc : Framebuffer × Bool) (px : Fin 64) (py : Fin 32) (bit : Bool) : Framebuffer × Bool :=
  if bit then (Framebuffer.toggle acc.1 px py, acc.2 || Framebuffer.pixel acc.1 px py) else acc

/-- One sprite row of DRW, left to right: bit `7 - c` at column `(x0 + c) mod 64` (R111, R112). -/
def drawRow (b : Byte) (x0 y : Nat) (acc : Framebuffer × Bool) : Framebuffer × Bool :=
  (List.range 8).foldl (fun a c => drawBit a (Fin.ofNat 64 (x0 + c)) (Fin.ofNat 32 y) (b.getLsbD (7 - c))) acc

/-- The rows of a sprite, top to bottom, the first at row `y mod 32` (R111). -/
def drawRows : List Byte → Nat → Nat → Framebuffer × Bool → Framebuffer × Bool
  | [], _, _, acc => acc
  | b :: bs, x0, y, acc => drawRows bs x0 (y + 1) (drawRow b x0 y acc)

/-! ### Bulk register transfer -/

/-- `V[j + i] <- bs[i]` for each byte, ascending (R98). -/
def loadRegs : List Byte → Nat → Vector Byte 16 → Vector Byte 16
  | [], _, v => v
  | b :: bs, j, v => loadRegs bs (j + 1) (v.setIfInBounds j b)

end Sys2Proof.Machine
end

