-- ==== Sys2Proof/Machine/Cycle.lean ====
section
/-! DEFINITION. The phases of a step around execute (spec/40_step_cycle.md): fetch, what an unknown word does, key
clear and timer tick; and placing an instruction where fetch reads it. -/

namespace Sys2Proof.Machine

/-- Fetch (R61): the big-endian word at `PC`, or nothing when `PC + 1 >= 4096` (R38). -/
def fetch (s : State) : Option Word :=
  if s.pc.toNat + 1 ≥ memSize then none
  else some (wordOfBytes (s.mem.read s.pc.toNat) (s.mem.read (s.pc.toNat + 1)))

/-- What an unknown word does (R55): nothing but `PC <- PC + UNKNOWN_PC_INC`. The report is `unknownOpcodeOut`. -/
def unknownOpcode (s : State) : State := s.setPc (s.pc + params.unknownPcInc)

/-- Phase K (R64): all 16 key latches to 0. -/
def clearKeys (s : State) : State := s.setKeys (Vector.replicate 16 false)

/-- A timer's countdown: minus 1 while positive, never below 0 (R103). -/
def countDown (t : Byte) : Byte := if t = 0 then 0 else t - 1

/-- Phase T (R103): both timers, each by its own value. -/
def tickTimers (s : State) : State := (s.setDt (countDown s.dt)).setSt (countDown s.st)

/-- Phases K and T, in this order (R60). -/
def endOfStep (s : State) : State := tickTimers (clearKeys s)

/-- After execute: a step that raised a fatal error is over with nothing else written (R65); every other completed
operation is followed by phases K and T. -/
def completeStep : Out → Out
  | .next t => match t.status with
    | .running => .next (endOfStep t)
    | .halted _ => .next t
  | .fault r => .fault r
  | .refused r => .refused r

/-- The `unknown_opcode` output (R28, R123): whether the step from `s` meets an unknown word. It is an output of the
step and not state. -/
def unknownOpcodeOut (s : State) : Bool :=
  match s.status, fetch s with
  | .running, some w => (decodeWord w).isNone
  | _, _ => false

/-- `s` with the word `w` in the two bytes at `PC`, high byte first (R32); unchanged where fetch could not read it. -/
def placeWord (s : State) (w : Word) : State :=
  if s.pc.toNat + 1 ≥ memSize then s
  else s.setMem (s.mem.writeBytes s.pc.toNat [highByte w, lowByte w])

end Sys2Proof.Machine
end

