-- ==== Sys2Proof/Machine/Operands.lean ====
section
/-! DEFINITION. The operand forms of R47 and R48: what an operand field, or an implicit operand, stands for. -/

namespace Sys2Proof.Machine

/-- `zext_16(nnn)`: an address operand as it is written to `PC` or `I` (R48). -/
def addrOperand (nnn : Addr) : Word := nnn.setWidth 16

/-- `zext_16(V[x])`: a register as an addend of a 16-bit register. -/
def regOperand16 (s : State) (x : Nibble) : Word := (s.reg x).setWidth 16

/-- The target of JP V0: `zext_16(nnn) + zext_16(V[0])`, a 16-bit sum (R71). -/
def offsetTarget (s : State) (nnn : Addr) : Word := addrOperand nnn + regOperand16 s 0

/-- `FONT_BASE + 5 * zext_16(V[x])`, the whole 8-bit value (R95). -/
def glyphAddress (s : State) (x : Nibble) : Word := BitVec.ofNat 16 fontBase + 5 * regOperand16 s x

/-- The byte address `I`, the base of every data access (R99). -/
def baseAddress (s : State) : Nat := s.i.toNat

/-- The number of registers a bulk transfer moves: `x + 1`, register `x` included (R97, R98). -/
def bulkCount (x : Nibble) : Nat := x.toNat + 1

/-- `V[0]`..`V[x]`, the bytes of a bulk store (R97). -/
def bulkBytes (s : State) (x : Nibble) : List Byte := s.v.toList.take (bulkCount x)

/-- The bytes a sprite of height `n` reads from `MEM[I]` on (R111). -/
def spriteBytes (s : State) (n : Nibble) : List Byte := s.mem.readBytes (baseAddress s) n.toNat

/-- The three decimal digits of a byte: hundreds, tens, ones (R96). -/
def bcdDigits (val : Byte) : List Byte := [val / 100, (val / 10) % 10, val % 10]

/-- `KEYS[k]` for a key number inside `0..15` (R22). -/
def keyLatched (s : State) (k : Nat) : Bool := s.keys.toList.getD k false

/-- The least `k` with `KEYS[k] = 1`, by an ascending scan (R107). -/
def lowestKey (s : State) : Option Nat := s.keys.toList.findIdx? (fun pressed => pressed)

/-- The key-number check of SKP and SKNP: the whole register, never masked (R105, R106). -/
def withKey (s : State) (x : Nibble) (k : Nat → Out) : Out :=
  if (s.reg x).toNat < keyCount then k (s.reg x).toNat else raise .keyIndexOutOfRange s

/-- The byte `rnd` of this step: the next free value (R115). -/
def rndInput (s : State) : Byte := Config.rnd s.draws

end Sys2Proof.Machine
end

