-- ==== Sys2Proof/Machine/Flags.lean ====
section
/-! DEFINITION. Every flag the spec computes (R11) and the order in which result and flag are written (R91). -/

namespace Sys2Proof.Machine

/-- A condition as a flag value, 0 or 1 (R11). -/
def flagOf (c : Bool) : Byte := if c then 1 else 0

/-- ADD Vx, Vy: 1 when the unbounded sum exceeds 255 (R86). -/
def carryFlag (a b : Byte) : Byte := flagOf (decide (a.toNat + b.toNat > 255))

/-- SUB and SUBN: 1 when minuend `a` is at least subtrahend `b`, no borrow (R87, R89). -/
def noBorrowFlag (a b : Byte) : Byte := flagOf (decide (a.toNat ≥ b.toNat))

/-- SHR: the bit shifted out, `a[0]` (R88). -/
def shrFlag (a : Byte) : Byte := flagOf (a.getLsbD 0)

/-- SHL: the bit shifted out, `a[7]` (R90). -/
def shlFlag (a : Byte) : Byte := flagOf (a.getLsbD 7)

/-- DRW: 1 when a pixel went from on to off (R111, R113). -/
def collisionFlag (c : Bool) : Byte := flagOf c

/-- The two writes of R86 to R90 in the order the parameter says: `V[x] <- r` and `VF <- f` (R91). -/
def writeResultFlag (order : VfOrder) (x : Nibble) (r f : Byte) (s : State) : State :=
  match order with
  | .flagLast => (s.setReg x r).setReg vf f
  | .resultLast => (s.setReg vf f).setReg x r

end Sys2Proof.Machine
end

