-- ==== Sys2Proof/Machine/Arithmetic.lean ====
section
/-! DEFINITION. Register and immediate arithmetic (spec/42_arithmetic.md). Operands are read before any write. -/

namespace Sys2Proof.Machine

/-- `V[x] <- r`, then `PC + 2`: the operations that write no flag (R80 to R85). -/
def finishReg (x : Nibble) (r : Byte) (s : State) : Out := .next (s.setReg x r).advance

/-- `V[x] <- r` and `VF <- f` in the order of R91, then `PC + 2` (R86 to R90). -/
def finishFlagged (x : Nibble) (r f : Byte) (s : State) : Out :=
  .next (writeResultFlag params.vfOrder x r f s).advance

/-- LD Vx, kk (R80). -/
def execLdImm (x : Nibble) (kk : Byte) (s : State) : Out := finishReg x kk s

/-- ADD Vx, kk (R81): wraps, no flag. -/
def execAddImm (x : Nibble) (kk : Byte) (s : State) : Out := finishReg x (s.reg x + kk) s

/-- LD Vx, Vy (R82). -/
def execLdReg (x y : Nibble) (s : State) : Out := finishReg x (s.reg y) s

/-- OR Vx, Vy (R83). -/
def execOr (x y : Nibble) (s : State) : Out := finishReg x (s.reg x ||| s.reg y) s

/-- AND Vx, Vy (R84). -/
def execAnd (x y : Nibble) (s : State) : Out := finishReg x (s.reg x &&& s.reg y) s

/-- XOR Vx, Vy (R85). -/
def execXor (x y : Nibble) (s : State) : Out := finishReg x (s.reg x ^^^ s.reg y) s

/-- ADD Vx, Vy (R86): the flag is the carry out. -/
def execAddReg (x y : Nibble) (s : State) : Out :=
  finishFlagged x (s.reg x + s.reg y) (carryFlag (s.reg x) (s.reg y)) s

/-- SUB Vx, Vy (R87): `V[x] - V[y]`, the flag is "no borrow". -/
def execSub (x y : Nibble) (s : State) : Out :=
  finishFlagged x (s.reg x - s.reg y) (noBorrowFlag (s.reg x) (s.reg y)) s

/-- SHR Vx (R88): the operand is `V[x]`, `y` is ignored. -/
def execShr (x : Nibble) (s : State) : Out := finishFlagged x (s.reg x >>> 1) (shrFlag (s.reg x)) s

/-- SUBN Vx, Vy (R89): `V[y] - V[x]`. -/
def execSubn (x y : Nibble) (s : State) : Out :=
  finishFlagged x (s.reg y - s.reg x) (noBorrowFlag (s.reg y) (s.reg x)) s

/-- SHL Vx (R90): the operand is `V[x]`, `y` is ignored. -/
def execShl (x : Nibble) (s : State) : Out := finishFlagged x (s.reg x <<< 1) (shlFlag (s.reg x)) s

end Sys2Proof.Machine
end

