-- ==== Sys2Proof/Machine/ControlFlow.lean ====
section
/-! DEFINITION. Control flow (spec/41_control_flow.md): JP, JP V0, CALL, RET and the four register skips. -/

namespace Sys2Proof.Machine

/-- JP nnn (R70). -/
def execJp (nnn : Addr) (s : State) : Out := .next (s.setPc (addrOperand nnn))

/-- JP V0, nnn (R71): the sum is not reduced to 12 bits. -/
def execJpV0 (nnn : Addr) (s : State) : Out := .next (s.setPc (offsetTarget s nnn))

/-- CALL nnn (R72): pushes its own address. -/
def execCall (nnn : Addr) (s : State) : Out := pushThen s.pc s fun t => .next (t.setPc (addrOperand nnn))

/-- RET (R73): continues at the popped address plus `RET_ADJUST`. -/
def execRet (s : State) : Out := popThen s fun ret t => .next (t.setPc (ret + params.retAdjust))

/-- SE Vx, kk (R74). -/
def execSeImm (x : Nibble) (kk : Byte) (s : State) : Out := .next (s.skipIf (s.reg x == kk))

/-- SNE Vx, kk (R75). -/
def execSneImm (x : Nibble) (kk : Byte) (s : State) : Out := .next (s.skipIf (s.reg x != kk))

/-- SE Vx, Vy (R76). -/
def execSeReg (x y : Nibble) (s : State) : Out := .next (s.skipIf (s.reg x == s.reg y))

/-- SNE Vx, Vy (R77). -/
def execSneReg (x y : Nibble) (s : State) : Out := .next (s.skipIf (s.reg x != s.reg y))

end Sys2Proof.Machine
end

