-- ==== Sys2Proof/Machine/Display.lean ====
section
/-! DEFINITION. The display (spec/46_display.md): the only instructions that change the framebuffer. -/

namespace Sys2Proof.Machine

/-- CLS (R110). -/
def execCls (s : State) : Out := .next (s.setFb Framebuffer.blank).advance

/-- What DRW makes of the framebuffer, and whether a pixel went from on to off. `V[x]`, `V[y]` and `I` are those
before any write (R111, R112). -/
def drawSprite (x y n : Nibble) (s : State) : Framebuffer × Bool :=
  drawRows (spriteBytes s n) (s.reg x).toNat (s.reg y).toNat (s.fb, false)

/-- DRW Vx, Vy, n (R111): the framebuffer, then `VF`, once, after the last pixel. -/
def execDrw (x y n : Nibble) (s : State) : Out :=
  withAccess s n.toNat fun s =>
    .next ((s.setFb (drawSprite x y n s).1).setReg vf (collisionFlag (drawSprite x y n s).2)).advance

end Sys2Proof.Machine
end

