-- ==== Sys2Proof/Machine/IndexMemory.lean ====
section
/-! DEFINITION. The index register and memory transfers (spec/43_memory_index.md). -/

namespace Sys2Proof.Machine

/-- LD I, nnn (R93). -/
def execLdI (nnn : Addr) (s : State) : Out := .next (s.setI (addrOperand nnn)).advance

/-- ADD I, Vx (R94): wraps modulo 65536, no flag. -/
def execAddI (x : Nibble) (s : State) : Out := .next (s.setI (s.i + regOperand16 s x)).advance

/-- LD F, Vx (R95): computes an address, no memory access. -/
def execLdF (x : Nibble) (s : State) : Out := .next (s.setI (glyphAddress s x)).advance

/-- LD B, Vx (R96): three digits at `I`, `I + 1`, `I + 2`. -/
def execLdB (x : Nibble) (s : State) : Out :=
  withAccess s 3 fun s => .next (s.setMem (s.mem.writeBytes (baseAddress s) (bcdDigits (s.reg x)))).advance

/-- LD [I], Vx (R97): `V[0]`..`V[x]` to memory, `I` unchanged. -/
def execLdMemVx (x : Nibble) (s : State) : Out :=
  withAccess s (bulkCount x) fun s => .next (s.setMem (s.mem.writeBytes (baseAddress s) (bulkBytes s x))).advance

/-- LD Vx, [I] (R98): memory to `V[0]`..`V[x]`, `I` unchanged. -/
def execLdVxMem (x : Nibble) (s : State) : Out :=
  withAccess s (bulkCount x) fun s =>
    .next (s.setRegs (loadRegs (s.mem.readBytes (baseAddress s) (bulkCount x)) 0 s.v)).advance

end Sys2Proof.Machine
end

