-- ==== Sys2Proof/Machine/Input.lean ====
section
/-! DEFINITION. Key input (spec/45_input.md). The latches are read here and cleared by the key-clear phase. -/

namespace Sys2Proof.Machine

/-- SKP Vx (R105): skip if the key numbered `V[x]` is latched. -/
def execSkp (x : Nibble) (s : State) : Out := withKey s x fun k => .next (s.skipIf (keyLatched s k))

/-- SKNP Vx (R106): skip if it is not. -/
def execSknp (x : Nibble) (s : State) : Out := withKey s x fun k => .next (s.skipIf (!keyLatched s k))

/-- LD Vx, K (R107): the lowest latched key; with none latched nothing is written and `PC` stays, so that the same
instruction is fetched again. -/
def execLdVxK (x : Nibble) (s : State) : Out :=
  match lowestKey s with
  | some k => .next (s.setReg x (BitVec.ofNat 8 k)).advance
  | none => .next s

end Sys2Proof.Machine
end

