-- ==== Sys2Proof/Machine/Random.lean ====
section
/-! DEFINITION. The random-number instruction (spec/47_random.md). -/

namespace Sys2Proof.Machine

/-- The byte RND writes: `rnd & kk` (R116). -/
def rndResult (rnd kk : Byte) : Byte := rnd &&& kk

/-- RND Vx, kk (R116): `rnd` is the free value of this draw, and the draw counter moves on. -/
def execRnd (x : Nibble) (kk : Byte) (s : State) : Out :=
  .next (s.drawn.setReg x (rndResult (rndInput s) kk)).advance

end Sys2Proof.Machine
end

