-- ==== Sys2Proof/Machine/Timers.lean ====
section
/-! DEFINITION. The three timer loads (spec/44_timers.md); the countdown is a phase of the step (Machine/Cycle.lean). -/

namespace Sys2Proof.Machine

/-- LD Vx, DT (R100): `DT` before this step's decrement. -/
def execLdVxDt (x : Nibble) (s : State) : Out := .next (s.setReg x s.dt).advance

/-- LD DT, Vx (R101). -/
def execLdDtVx (x : Nibble) (s : State) : Out := .next (s.setDt (s.reg x)).advance

/-- LD ST, Vx (R102). -/
def execLdStVx (x : Nibble) (s : State) : Out := .next (s.setSt (s.reg x)).advance

end Sys2Proof.Machine
end

