-- ==== Sys2Proof/Machine/Step.lean ====
section
/-! DEFINITION. The step (R60): fetch, decode, execute, key clear, timer tick. -/

namespace Sys2Proof.Machine

/-- One step. A halted block ignores it and no state changes (R66). A failing fetch writes `STATUS` alone; a fetched
word is in `IR` whatever follows (R61, R65). -/
def step (s : State) : Host.Outcome State Fault Refusal :=
  match s.status with
  | .halted _ => .next s
  | .running =>
    match fetch s with
    | none => raise .programCounterOutOfBounds s
    | some w =>
      match decodeWord w with
      | none => .next (endOfStep (unknownOpcode (s.setIr w)))
      | some i => completeStep (exec i (s.setIr w))

/-- `s` with an instruction word stored where `step` fetches its next instruction; bits from `nbits` up are 0. -/
def State.withFetchWord (s : State) (nbits w : Nat) : State :=
  placeWord s (BitVec.ofNat 16 (w % 2 ^ nbits))

end Sys2Proof.Machine
end

