-- ==== Sys2Proof/Machine/Ports.lean ====
section
/-! DEFINITION. The host's side of the block (R28): reset with a program image, key setting, the framebuffer read port
and the status outputs. All of it happens between steps (R146, R147). -/

namespace Sys2Proof.Machine

/-- The errors at the host boundary (R122): caller errors that change nothing and halt no run. -/
inductive HostError where
  /-- `create` with an image longer than 3584 bytes (R141). -/
  | programTooLarge
  /-- `set_key` with an index of 16 or more (R23). -/
  | keyIndexOutOfRange
  /-- `read_pixel` outside 64 x 32 (R21). -/
  | coordinateOutOfRange
  deriving DecidableEq, Repr

/-- `Reset(P)` (R140): the reset state with the program image at address 512. -/
def State.create (image : List Byte) : Except HostError State :=
  if image.length > progMax then .error .programTooLarge
  else .ok (State.reset.setMem (State.reset.mem.writeBytes progBase image))

/-- `set_key(index)` (R23): marks one key as pressed for the upcoming step. DESIGN CHOICE (notes/assumptions/31.md): it
latches the key in a halted block too, where R25 and R66 can be read to say that nothing changes. -/
def setKey (index : Nat) (s : State) : Except HostError State :=
  if index < keyCount then .ok (s.setKeys (s.keys.setIfInBounds index true))
  else .error .keyIndexOutOfRange

/-- The port `key_set[15:0]` (R23): `KEYS[k] <- KEYS[k] | key_set[k]`. DESIGN CHOICE (notes/assumptions/31.md): in a
halted block too. -/
def keySetPort (bits : BitVec 16) (s : State) : State :=
  s.setKeys (s.keys.mapFinIdx fun k pressed _ => pressed || bits.getLsbD k)

/-- `display_width()` (R21). -/
abbrev displayWidth : Nat := 64

/-- `display_height()` (R21). -/
abbrev displayHeight : Nat := 32

/-- The read port `fb_rd_data = FB[fb_rd_x][fb_rd_y]` (R21). -/
def fbRdData (x : BitVec 6) (y : BitVec 5) (s : State) : Bool := Framebuffer.pixel s.fb x.toFin y.toFin

/-- `read_pixel(x, y)` on wider integers (R21): fails outside the bounds, never clamps or wraps. -/
def readPixel (x y : Nat) (s : State) : Except HostError Bool :=
  if x < displayWidth ∧ y < displayHeight then .ok (Framebuffer.pixel s.fb (Fin.ofNat 64 x) (Fin.ofNat 32 y))
  else .error .coordinateOutOfRange

/-- The output `sound_active = (ST > 0)` (R19). -/
def soundActive (s : State) : Bool := decide (s.st.toNat > 0)

/-- The output `halted` (R25). -/
def haltedOut (s : State) : Bool :=
  match s.status with
  | .running => false
  | .halted _ => true

/-- The output `err_code[3:0]` (R121). -/
def errCode (s : State) : BitVec 4 :=
  match s.status with
  | .running => 0
  | .halted .programCounterOutOfBounds => 1
  | .halted .stackOverflow => 2
  | .halted .stackUnderflow => 3
  | .halted .memoryOutOfBounds => 4
  | .halted .keyIndexOutOfRange => 5

/-- What the host may do to the state (R146); reading a pixel or an output changes nothing and needs no move. -/
inductive HostMove where
  /-- Reset with a program image. -/
  | create (image : List Byte)
  /-- Mark a key as pressed. -/
  | setKey (index : Nat)
  /-- Request one step. -/
  | step
  deriving DecidableEq, Repr

/-- One move of the host. A boundary error leaves the state as it is (R122). DESIGN CHOICE (notes/assumptions/31.md): a
key is latched whatever `STATUS` is; only the step request is ignored in a halted block (R66). -/
def hostMove (m : HostMove) (s : State) : Out :=
  match m with
  | .create image => match State.create image with
    | .ok t => .next t
    | .error _ => .next s
  | .setKey k => match setKey k s with
    | .ok t => .next t
    | .error _ => .next s
  | .step => step s

end Sys2Proof.Machine
end

