-- ==== Sys2Proof/Safety.lean ====
section
/-! DEFINITION. The terms claims are stated in: what a step leaves unchanged, the invariant of R27, the three outcomes
of R9, the table of fatal errors of R120, and which sprite bits reach a pixel (R111). -/

namespace Sys2Proof.Machine

/-- The pieces of state a frame statement speaks of. -/
inductive Part where
  | regs | i | pc | sp | stack | dt | st | fb | keys | ir | status | mem | draws
  deriving DecidableEq, Repr

/-- `t` holds in one piece of state what `s` holds there. Memory is compared byte by byte, at every address. -/
def SamePart (s t : State) : Part → Prop
  | .regs => ∀ j, t.reg j = s.reg j
  | .i => t.i = s.i
  | .pc => t.pc = s.pc
  | .sp => t.sp = s.sp
  | .stack => t.stack = s.stack
  | .dt => t.dt = s.dt
  | .st => t.st = s.st
  | .fb => t.fb = s.fb
  | .keys => t.keys = s.keys
  | .ir => t.ir = s.ir
  | .status => t.status = s.status
  | .mem => ∀ a, t.mem.read a = s.mem.read a
  | .draws => t.draws = s.draws

/-- Everything outside the listed pieces of state is unchanged ("A rule that says nothing about a piece of state
leaves it unchanged", R8). -/
def SameExcept (ps : List Part) (s t : State) : Prop := ∀ p, p ∉ ps → SamePart s t p

/-- The answer is a next state in which the run has ended with fatal error `e` and nothing but `STATUS` is written
(R65, R124). -/
def HaltsWith (o : Out) (s : State) (e : FatalError) : Prop :=
  ∃ t, o = .next t ∧ t.status = .halted e ∧ SameExcept [.status] s t

/-- What every reachable state satisfies: R27 (b), the bound on valid stack entries (R27), the largest `PC` any rule
can produce (R14), and the canonical form of memory. -/
structure State.Inv (s : State) : Prop where
  /-- The memory list is canonical. -/
  memWf : s.mem.wf = true
  /-- `0 <= SP <= 16`. -/
  spBound : s.sp.toNat ≤ 16
  /-- A valid stack entry is an address that has passed the fetch check. -/
  stackBound : ∀ j : Fin 16, j.val < s.sp.toNat → (s.stack[j]).toNat ≤ 4094
  /-- No rule produces a larger `PC` than 0x10FE. -/
  pcBound : s.pc.toNat ≤ 0x10FE

/-- The table of R120: the fatal error the single check of an operation raises in `s`, if it does. -/
def fatalOf (i : Instr) (s : State) : Option FatalError :=
  match i with
  | .call _ => if s.sp.toNat = 16 then some .stackOverflow else none
  | .ret _ => if s.sp.toNat = 0 then some .stackUnderflow else none
  | .ldB _ => if s.i.toNat + 3 > 4096 then some .memoryOutOfBounds else none
  | .ldMemVx x | .ldVxMem x => if s.i.toNat + (x.toNat + 1) > 4096 then some .memoryOutOfBounds else none
  | .drw _ _ n => if s.i.toNat + n.toNat > 4096 then some .memoryOutOfBounds else none
  | .skp x | .sknp x => if (s.reg x).toNat ≥ 16 then some .keyIndexOutOfRange else none
  | .cls _ | .jp _ | .seImm _ _ | .sneImm _ _ | .seReg _ _ _ | .ldImm _ _ | .addImm _ _ | .ldReg _ _
  | .orReg _ _ | .andReg _ _ | .xorReg _ _ | .addReg _ _ | .sub _ _ | .shr _ _ | .subn _ _ | .shl _ _
  | .sneReg _ _ _ | .ldI _ | .jpV0 _ | .rnd _ _ | .ldVxDt _ | .ldVxK _ | .ldDtVx _ | .ldStVx _ | .addI _
  | .ldF _ => none

/-- The status the table of R120 gives an operation executed in a running state. -/
def statusOf : Option FatalError → Status
  | none => .running
  | some e => .halted e

/-- Some 1 bit of the sprite of DRW Vx, Vy, n reaches the pixel: row `r` of the sprite, bit `7 - c`, at column
`(V[x] + c) mod 64` and row `(V[y] + r) mod 32` (R111). -/
def SpriteCovers (s : State) (x y n : Nibble) (px : Fin 64) (py : Fin 32) : Prop :=
  ∃ r c : Nat, r < n.toNat ∧ c < 8 ∧ (s.mem.read (s.i.toNat + r)).getLsbD (7 - c) = true ∧
    px.val = ((s.reg x).toNat + c) % 64 ∧ py.val = ((s.reg y).toNat + r) % 32

/-- The instruction a step from `s` fetches, where it fetches a known one. -/
def fetched (s : State) : Option Instr := (fetch s).bind decodeWord

/-- Two states that differ only in what no instruction can see: `IR` and the stack slots above `SP` (R17, R24, U15). -/
structure StaleEquiv (s t : State) : Prop where
  /-- Everything but `IR` and the stack is equal. -/
  rest : { s with ir := t.ir, stack := t.stack } = t
  /-- The valid stack entries are equal. -/
  valid : ∀ j : Fin 16, j.val < s.sp.toNat → s.stack[j] = t.stack[j]

/-- The outcomes of a step as R9 names them. -/
inductive SpecOutcome where
  /-- `Next(S')`. -/
  | next (s : State)
  /-- `Next(S')` with the report `UnknownOpcode`. -/
  | reported (s : State)
  /-- `Fatal(E, S'')`. -/
  | fatal (e : FatalError) (s : State)
  /-- The step is not enabled (R66). -/
  | disabled
  /-- The model stopped by a fault or refusal of its own. -/
  | outside
  deriving DecidableEq, Repr

/-- `Step(S, rnd)` read as R9 reads it: a next state whose status is `halted` is the outcome `Fatal`. -/
def specStep (s : State) : SpecOutcome :=
  match s.status with
  | .halted _ => .disabled
  | .running =>
    match step s with
    | .next t => match t.status with
      | .halted e => .fatal e t
      | .running => if unknownOpcodeOut s then .reported t else .next t
    | .fault _ => .outside
    | .refused _ => .outside

/-- A step a program may count on: it completes, and meets no unknown word (U1). -/
def SafeStep (s : State) : Prop :=
  ∃ t, step s = .next t ∧ t.status = .running ∧ unknownOpcodeOut s = false

end Sys2Proof.Machine
end

