-- ==== Sys2Proof/Certificates/Slice0/Obligations.lean ====
section
/-! DEFINITION. The statements for the provers, from the numbered rules of spec/. Where a statement rests on a decision
of the spec (D<n>), on general knowledge it marks as such (G<n>), or on a choice of this model, its docstring says so.
`SameExcept ps s t` says that `t` holds what `s` holds in every piece of state outside `ps`, every byte of memory included. -/

open Sys2Proof Sys2Proof.Machine

/-! ### Decoding and encoding (spec/30_encoding.md) -/

/-- Decoding the bytes of an instruction, whatever bytes follow, gives that instruction with every operand and every
ignored nibble, and leaves the bytes that follow. The code points are general knowledge of the spec (D10, G1; log 8). -/
def Obligations.DecodeOfEncodeIsIdentity : Prop :=
  ∀ (i : Instr) (rest : List Byte), decode (encodeBytes i ++ rest) = .ok (i, rest)

/-- A word that decodes is the word of the instruction it decodes to: no bit is dropped or read twice. -/
def Obligations.EncodeOfDecodeIsIdentity : Prop :=
  ∀ (w : Word) (i : Instr), decodeWord w = some i → encode i = w

/-- The words of a row of R52 are exactly those with `w & mask = match` (D8, D9, D10). -/
def Obligations.RowSelectedByMaskAndMatch : Prop :=
  ∀ (i : Instr) (w : Word),
    (∃ j, decodeWord w = some j ∧ rowMask j = rowMask i ∧ rowMatch j = rowMatch i) ↔ w &&& rowMask i = rowMatch i

/-- The unknown words are exactly the four sets of R54, by high nibble, low byte and low nibble (D8 to D11). -/
def Obligations.UnknownWordsAreExactlyFourSets : Prop :=
  ∀ w : Word, decodeWord w = none ↔
    (w.toNat / 4096 = 0x0 ∧ w.toNat % 256 ∉ [0xE0, 0xEE]) ∨
    (w.toNat / 4096 = 0x8 ∧ w.toNat % 16 ∈ [0x8, 0x9, 0xA, 0xB, 0xC, 0xD, 0xF]) ∨
    (w.toNat / 4096 = 0xE ∧ w.toNat % 256 ∉ [0x9E, 0xA1]) ∨
    (w.toNat / 4096 = 0xF ∧ w.toNat % 256 ∉ [0x07, 0x0A, 0x15, 0x18, 0x1E, 0x29, 0x33, 0x55, 0x65])

/-- Words written out from R52, one or more per family, decode to the instruction they stand for (D10). -/
def Obligations.SampleWordsDecode : Prop :=
  decode [0x12, 0x34] = .ok (.jp 0x234, []) ∧ decode [0x81, 0x24] = .ok (.addReg 1 2, []) ∧
  decode [0xF2, 0x55] = .ok (.ldMemVx 2, []) ∧ decode [0xF3, 0x07] = .ok (.ldVxDt 3, []) ∧
  decode [0xE2, 0xA1] = .ok (.sknp 2, []) ∧ decode [0xD1, 0x25] = .ok (.drw 1 2 5, []) ∧
  decode [0xC3, 0x0F] = .ok (.rnd 3 0x0F, []) ∧ decode [0x00, 0x00] = .error (.unknownOpcode 0)

/-! ### The step (spec/40_step_cycle.md) -/

/-- Fetch: the big-endian word at `PC`; past the end of memory the run ends with nothing but `STATUS` written: that a
fatal error is a halted state is the spec's decision D4, that it writes nothing else its decision D6 (log 1, log 19). -/
def Obligations.FetchReadsBigEndianWord : Prop :=
  ∀ s : State,
    (s.pc.toNat + 1 < 4096 →
      ∃ w, fetch s = some w ∧ (∀ k : Nat, k < 8 → w.getLsbD (8 + k) = (s.mem.read s.pc.toNat).getLsbD k) ∧
        (∀ k : Nat, k < 8 → w.getLsbD k = (s.mem.read (s.pc.toNat + 1)).getLsbD k)) ∧
    (4096 ≤ s.pc.toNat + 1 → fetch s = none ∧
      (s.status = .running → HaltsWith (step s) s .programCounterOutOfBounds))

/-- A step of a running state whose bytes at `PC` decode to `i` is `exec` of `i`, with the word in `IR`, followed by the
key-clear and timer phases when no fatal error was raised. -/
def Obligations.StepRunsDecodedInstruction : Prop :=
  ∀ (s : State) (i : Instr) (rest : List Byte), s.status = .running → s.pc.toNat + 1 < 4096 →
    decode [s.mem.read s.pc.toNat, s.mem.read (s.pc.toNat + 1)] = .ok (i, rest) →
    step s = completeStep (exec i (s.setIr (wordOfBytes (s.mem.read s.pc.toNat) (s.mem.read (s.pc.toNat + 1)))))

/-- A halted block ignores the step and no state changes. `STATUS` is the spec's own decision (D4; log 1). -/
def Obligations.HaltedStepChangesNothing : Prop :=
  ∀ (s : State) (e : FatalError), s.status = .halted e → step s = .next s

/-- After every completed step all key latches are 0 and each timer holds one less than before, or 0; a timer load's
value is already decremented (R64, R103). A step that ends in a fatal error clears and ticks nothing: that clause is R65,
the spec's own decision D6 (log 19). -/
def Obligations.KeyClearAndTimerTickEndEveryStep : Prop :=
  ∀ s t : State, s.status = .running → step s = .next t →
    (t.status = .running → (∀ k : Fin 16, t.keys[k] = false) ∧
      ((∀ x, fetched s ≠ some (.ldDtVx x)) → t.dt.toNat = s.dt.toNat - 1) ∧
      ((∀ x, fetched s ≠ some (.ldStVx x)) → t.st.toNat = s.st.toNat - 1) ∧
      (∀ x, fetched s = some (.ldDtVx x) → t.dt.toNat = (s.reg x).toNat - 1) ∧
      (∀ x, fetched s = some (.ldStVx x) → t.st.toNat = (s.reg x).toNat - 1)) ∧
    (t.status ≠ .running → t.keys = s.keys ∧ t.dt = s.dt ∧ t.st = s.st)

/-- An unknown word is reported, advances `PC` by 2 and changes nothing else but what ends every step: UNKNOWN_PC_INC is
the spec's decision D7 (log 4). -/
def Obligations.UnknownWordAdvancesAndReports : Prop :=
  ∀ (s : State) (w : Word), s.status = .running → fetch s = some w → decodeWord w = none →
    unknownOpcodeOut s = true ∧
    ∃ t, step s = .next t ∧ t.pc = s.pc + 2 ∧ t.ir = w ∧ t.status = .running ∧ (∀ k : Fin 16, t.keys[k] = false) ∧
      t.dt.toNat = s.dt.toNat - 1 ∧ t.st.toNat = s.st.toNat - 1 ∧ SameExcept [.pc, .ir, .keys, .dt, .st] s t

/-- A step that ends in a fatal error writes `STATUS` and, where the fetch succeeded, `IR`, and nothing else: the spec's
decision D6 (log 19). -/
def Obligations.FatalStepWritesOnlyStatusAndIr : Prop :=
  ∀ (s t : State) (e : FatalError), s.status = .running → step s = .next t → t.status = .halted e →
    SameExcept [.status, .ir] s t ∧ (fetch s = none → t.ir = s.ir) ∧ (∀ w, fetch s = some w → t.ir = w)

/-- In a state whose `SP` is legal every instruction answers a next state, and it has raised exactly the fatal error the
table of R120 gives it (D4, D21; log 1, log 18). -/
def Obligations.ExecRaisesExactlyTheFatalTable : Prop :=
  ∀ (i : Instr) (s : State), s.status = .running → s.sp.toNat ≤ 16 →
    ∃ t, exec i s = .next t ∧ t.status = statusOf (fatalOf i s)

/-! ### Control flow (spec/41_control_flow.md) -/

/-- JP nnn. -/
def Obligations.JumpSetsPc : Prop :=
  ∀ (nnn : Addr) (s : State), ∃ t, exec (.jp nnn) s = .next t ∧ t.pc.toNat = nnn.toNat ∧ SameExcept [.pc] s t

/-- JP V0, nnn: the sum is not reduced to 12 bits and cannot overflow 16. -/
def Obligations.JumpOffsetAddsV0 : Prop :=
  ∀ (nnn : Addr) (s : State), ∃ t, exec (.jpV0 nnn) s = .next t ∧
    t.pc.toNat = nnn.toNat + (s.reg 0).toNat ∧ SameExcept [.pc] s t

/-- CALL nnn: pushes its own address and jumps; on a full stack the run halts and nothing is written (the halted state is the
spec's decision D4; log 1). -/
def Obligations.CallPushesOwnAddress : Prop :=
  ∀ (nnn : Addr) (s : State),
    (s.sp.toNat < 16 → ∃ t, exec (.call nnn) s = .next t ∧ t.pc.toNat = nnn.toNat ∧ t.sp.toNat = s.sp.toNat + 1 ∧
      (∀ j : Fin 16, t.stack[j] = if j.val = s.sp.toNat then s.pc else s.stack[j]) ∧
      SameExcept [.pc, .sp, .stack] s t) ∧
    (s.sp.toNat = 16 → HaltsWith (exec (.call nnn) s) s .stackOverflow)

/-- RET: continues at the popped address plus 2 (RET_ADJUST, the spec's decision D15; log 5), whatever the ignored
nibble (R50, the spec's decision D8; log 9); the popped slot keeps its contents; on an empty stack the run halts (D4;
log 1). -/
def Obligations.ReturnContinuesAfterCall : Prop :=
  ∀ (z : Nibble) (s : State),
    (∀ j : Fin 16, s.sp.toNat = j.val + 1 → ∃ t, exec (.ret z) s = .next t ∧ t.pc = s.stack[j] + 2 ∧ t.sp.toNat = j.val ∧
      SameExcept [.pc, .sp] s t) ∧
    (s.sp.toNat = 0 → HaltsWith (exec (.ret z) s) s .stackUnderflow)

/-- SE Vx, kk and SNE Vx, kk: skip is `PC + 4`, no skip `PC + 2`. -/
def Obligations.ImmediateSkipsCompareRegister : Prop :=
  ∀ (x : Nibble) (kk : Byte) (s : State),
    (∃ t, exec (.seImm x kk) s = .next t ∧ (s.reg x = kk → t.pc = s.pc + 4) ∧ (s.reg x ≠ kk → t.pc = s.pc + 2) ∧
      SameExcept [.pc] s t) ∧
    (∃ t, exec (.sneImm x kk) s = .next t ∧ (s.reg x ≠ kk → t.pc = s.pc + 4) ∧ (s.reg x = kk → t.pc = s.pc + 2) ∧
      SameExcept [.pc] s t)

/-- SE Vx, Vy and SNE Vx, Vy, whatever the ignored low nibble. That it is ignored is R51, the spec's own decision D9
(log 9). -/
def Obligations.RegisterSkipsCompareRegisters : Prop :=
  ∀ (x y z : Nibble) (s : State),
    (∃ t, exec (.seReg x y z) s = .next t ∧ (s.reg x = s.reg y → t.pc = s.pc + 4) ∧
      (s.reg x ≠ s.reg y → t.pc = s.pc + 2) ∧ SameExcept [.pc] s t) ∧
    (∃ t, exec (.sneReg x y z) s = .next t ∧ (s.reg x ≠ s.reg y → t.pc = s.pc + 4) ∧
      (s.reg x = s.reg y → t.pc = s.pc + 2) ∧ SameExcept [.pc] s t)

/-! ### Arithmetic (spec/42_arithmetic.md) -/

/-- LD Vx, kk and LD Vx, Vy; `VF` is written only as the destination. -/
def Obligations.LoadAndCopyWriteDestination : Prop :=
  ∀ (x y : Nibble) (kk : Byte) (s : State),
    (∃ t, exec (.ldImm x kk) s = .next t ∧ t.reg x = kk ∧ t.pc = s.pc + 2 ∧ (∀ j, j ≠ x → t.reg j = s.reg j) ∧
      SameExcept [.regs, .pc] s t) ∧
    (∃ t, exec (.ldReg x y) s = .next t ∧ t.reg x = s.reg y ∧ t.pc = s.pc + 2 ∧ (∀ j, j ≠ x → t.reg j = s.reg j) ∧
      SameExcept [.regs, .pc] s t)

/-- ADD Vx, kk: the sum modulo 256, no flag. -/
def Obligations.AddImmediateWrapsWithoutFlag : Prop :=
  ∀ (x : Nibble) (kk : Byte) (s : State), ∃ t, exec (.addImm x kk) s = .next t ∧
    (t.reg x).toNat = ((s.reg x).toNat + kk.toNat) % 256 ∧ t.pc = s.pc + 2 ∧ (∀ j, j ≠ x → t.reg j = s.reg j) ∧
    SameExcept [.regs, .pc] s t

/-- OR, AND, XOR, bit by bit; that `VF` is unchanged is the spec's decision D27 (log 15). -/
def Obligations.BitwiseOperationsBitByBit : Prop :=
  ∀ (x y : Nibble) (s : State),
    (∃ t, exec (.orReg x y) s = .next t ∧ t.pc = s.pc + 2 ∧
      (∀ k, (t.reg x).getLsbD k = ((s.reg x).getLsbD k || (s.reg y).getLsbD k)) ∧
      (∀ j, j ≠ x → t.reg j = s.reg j) ∧ SameExcept [.regs, .pc] s t) ∧
    (∃ t, exec (.andReg x y) s = .next t ∧ t.pc = s.pc + 2 ∧
      (∀ k, (t.reg x).getLsbD k = ((s.reg x).getLsbD k && (s.reg y).getLsbD k)) ∧
      (∀ j, j ≠ x → t.reg j = s.reg j) ∧ SameExcept [.regs, .pc] s t) ∧
    (∃ t, exec (.xorReg x y) s = .next t ∧ t.pc = s.pc + 2 ∧
      (∀ k, (t.reg x).getLsbD k = ((s.reg x).getLsbD k ^^ (s.reg y).getLsbD k)) ∧
      (∀ j, j ≠ x → t.reg j = s.reg j) ∧ SameExcept [.regs, .pc] s t)

/-- ADD Vx, Vy with a destination other than `VF` (the other form: FlagWinsInVf): sum modulo 256, carry out in `VF`, the
old `VF` as an operand when `y` is 15. -/
def Obligations.AddRegisterSetsCarry : Prop :=
  ∀ (x y : Nibble) (s : State), x ≠ 15 → ∃ t, exec (.addReg x y) s = .next t ∧
    (t.reg x).toNat = ((s.reg x).toNat + (s.reg y).toNat) % 256 ∧
    (t.reg 15).toNat = (if (s.reg x).toNat + (s.reg y).toNat > 255 then 1 else 0) ∧ t.pc = s.pc + 2 ∧
    (∀ j, j ≠ x → j ≠ 15 → t.reg j = s.reg j) ∧ SameExcept [.regs, .pc] s t

/-- SUB and SUBN with a destination other than `VF` (the other form: FlagWinsInVf): difference modulo 256, `VF` is 1 when
no borrow occurs. -/
def Obligations.SubtractionsSetNoBorrow : Prop :=
  ∀ (x y : Nibble) (s : State), x ≠ 15 →
    (∃ t, exec (.sub x y) s = .next t ∧ (t.reg x).toNat = ((s.reg x).toNat + 256 - (s.reg y).toNat) % 256 ∧
      (t.reg 15).toNat = (if (s.reg x).toNat ≥ (s.reg y).toNat then 1 else 0) ∧ t.pc = s.pc + 2 ∧
      (∀ j, j ≠ x → j ≠ 15 → t.reg j = s.reg j) ∧ SameExcept [.regs, .pc] s t) ∧
    (∃ t, exec (.subn x y) s = .next t ∧ (t.reg x).toNat = ((s.reg y).toNat + 256 - (s.reg x).toNat) % 256 ∧
      (t.reg 15).toNat = (if (s.reg y).toNat ≥ (s.reg x).toNat then 1 else 0) ∧ t.pc = s.pc + 2 ∧
      (∀ j, j ≠ x → j ≠ 15 → t.reg j = s.reg j) ∧ SameExcept [.regs, .pc] s t)

/-- SHR and SHL with a destination other than `VF` (the other form: FlagWinsInVf): division and multiplication by 2 on
8 bits, the lost bit in `VF`. That `V[y]` plays no part is the spec's decision D28 (log 16). -/
def Obligations.ShiftsMoveLostBitToFlag : Prop :=
  ∀ (x y : Nibble) (s : State), x ≠ 15 →
    (∃ t, exec (.shr x y) s = .next t ∧ (t.reg x).toNat = (s.reg x).toNat / 2 ∧
      (t.reg 15).toNat = (s.reg x).toNat % 2 ∧ t.pc = s.pc + 2 ∧
      (∀ j, j ≠ x → j ≠ 15 → t.reg j = s.reg j) ∧ SameExcept [.regs, .pc] s t) ∧
    (∃ t, exec (.shl x y) s = .next t ∧ (t.reg x).toNat = ((s.reg x).toNat * 2) % 256 ∧
      (t.reg 15).toNat = (s.reg x).toNat / 128 ∧ t.pc = s.pc + 2 ∧
      (∀ j, j ≠ x → j ≠ 15 → t.reg j = s.reg j) ∧ SameExcept [.regs, .pc] s t)

/-- The five flag-writing operations with `VF` itself as the destination: the register ends holding the flag and the
result is lost. VF_ORDER is the spec's decision D16 (log 6). -/
def Obligations.FlagWinsInVf : Prop :=
  ∀ (y : Nibble) (s : State) (i : Instr) (flag : Nat),
    ((i = .addReg 15 y ∧ flag = if (s.reg 15).toNat + (s.reg y).toNat > 255 then 1 else 0) ∨
      (i = .sub 15 y ∧ flag = if (s.reg 15).toNat ≥ (s.reg y).toNat then 1 else 0) ∨
      (i = .subn 15 y ∧ flag = if (s.reg y).toNat ≥ (s.reg 15).toNat then 1 else 0) ∨
      (i = .shr 15 y ∧ flag = (s.reg 15).toNat % 2) ∨
      (i = .shl 15 y ∧ flag = (s.reg 15).toNat / 128)) →
    ∃ t, exec i s = .next t ∧ (t.reg 15).toNat = flag ∧ t.pc = s.pc + 2 ∧ (∀ j, j ≠ 15 → t.reg j = s.reg j) ∧
      SameExcept [.regs, .pc] s t

/-! ### Index register and memory (spec/43_memory_index.md) -/

/-- LD I, nnn. -/
def Obligations.LoadIndexZeroExtends : Prop :=
  ∀ (nnn : Addr) (s : State), ∃ t, exec (.ldI nnn) s = .next t ∧ t.i.toNat = nnn.toNat ∧ t.pc = s.pc + 2 ∧
    SameExcept [.i, .pc] s t

/-- ADD I, Vx: wraps modulo 65536, no flag: the spec's decision D22 (log 15). -/
def Obligations.AddIndexWrapsWithoutFlag : Prop :=
  ∀ (x : Nibble) (s : State), ∃ t, exec (.addI x) s = .next t ∧
    t.i.toNat = (s.i.toNat + (s.reg x).toNat) % 65536 ∧ t.pc = s.pc + 2 ∧ SameExcept [.i, .pc] s t

/-- LD F, Vx: five times the whole register, not its low nibble: the spec's decision D18 (log 13). -/
def Obligations.FontAddressIsFiveTimesRegister : Prop :=
  ∀ (x : Nibble) (s : State), ∃ t, exec (.ldF x) s = .next t ∧ t.i.toNat = 5 * (s.reg x).toNat ∧ t.pc = s.pc + 2 ∧
    SameExcept [.i, .pc] s t

/-- LD B, Vx: the three decimal digits at `I`, `I + 1`, `I + 2`, every other byte unchanged; past the end of memory the
run halts and no byte is written (D4; log 1). -/
def Obligations.BcdStoresThreeDigits : Prop :=
  ∀ (x : Nibble) (s : State), s.mem.wf = true →
    (s.i.toNat + 3 ≤ 4096 → ∃ t, exec (.ldB x) s = .next t ∧
      (t.mem.read (baseAddress s)).toNat = (s.reg x).toNat / 100 ∧
      (t.mem.read (baseAddress s + 1)).toNat = (s.reg x).toNat / 10 % 10 ∧
      (t.mem.read (baseAddress s + 2)).toNat = (s.reg x).toNat % 10 ∧
      (∀ a, a < baseAddress s ∨ baseAddress s + 3 ≤ a → t.mem.read a = s.mem.read a) ∧ t.pc = s.pc + 2 ∧
      SameExcept [.mem, .pc] s t) ∧
    (4096 < s.i.toNat + 3 → HaltsWith (exec (.ldB x) s) s .memoryOutOfBounds)

/-- LD [I], Vx: `V[0]` to `V[x]`, `x` included, to `I` on; `I` and every other byte unchanged. The inclusive range and
the unchanged `I` are the spec's decision D19 (log 14); past the end of memory the run halts and no byte is written
(D4; log 1). -/
def Obligations.BulkStoreWritesRegisters : Prop :=
  ∀ (x : Nibble) (s : State), s.mem.wf = true →
    (s.i.toNat + (x.toNat + 1) ≤ 4096 → ∃ t, exec (.ldMemVx x) s = .next t ∧
      (∀ j : Nibble, j.toNat ≤ x.toNat → t.mem.read (baseAddress s + j.toNat) = s.reg j) ∧
      (∀ a, a < baseAddress s ∨ baseAddress s + (x.toNat + 1) ≤ a → t.mem.read a = s.mem.read a) ∧ t.pc = s.pc + 2 ∧
      SameExcept [.mem, .pc] s t) ∧
    (4096 < s.i.toNat + (x.toNat + 1) → HaltsWith (exec (.ldMemVx x) s) s .memoryOutOfBounds)

/-- LD Vx, [I]: `V[0]` to `V[x]` from `I` on, the registers above `x` and all of memory unchanged (D19; log 14); past the
end of memory the run halts and no register is written (D4; log 1). -/
def Obligations.BulkLoadReadsRegisters : Prop :=
  ∀ (x : Nibble) (s : State),
    (s.i.toNat + (x.toNat + 1) ≤ 4096 → ∃ t, exec (.ldVxMem x) s = .next t ∧
      (∀ j : Nibble, t.reg j = if j.toNat ≤ x.toNat then s.mem.read (baseAddress s + j.toNat) else s.reg j) ∧
      t.pc = s.pc + 2 ∧ SameExcept [.regs, .pc] s t) ∧
    (4096 < s.i.toNat + (x.toNat + 1) → HaltsWith (exec (.ldVxMem x) s) s .memoryOutOfBounds)

/-- A store is seen by the very next fetch: after a step that executes LD [I], Vx or LD B, Vx inside memory, each byte
of the next word fetched is the one stored there, and the old one where nothing was stored. It holds wherever the stored
bytes lie, on one or both bytes of the next instruction, on the storing instruction itself or elsewhere. That a store is
visible to the next fetch is the spec's decision D26 (log 23); the range and the unchanged `I` of LD [I] its decision D19
(log 14). -/
def Obligations.StoreSeenByNextFetch : Prop :=
  ∀ (s : State) (x : Nibble), s.status = .running → s.mem.wf = true → s.pc.toNat + 3 < 4096 →
    (fetched s = some (.ldMemVx x) → s.i.toNat + (x.toNat + 1) ≤ 4096 →
      ∃ t hi lo, step s = .next t ∧ fetch t = some (wordOfBytes hi lo) ∧
        (∀ j : Nibble, j.toNat ≤ x.toNat → s.i.toNat + j.toNat = s.pc.toNat + 2 → hi = s.reg j) ∧
        (∀ j : Nibble, j.toNat ≤ x.toNat → s.i.toNat + j.toNat = s.pc.toNat + 3 → lo = s.reg j) ∧
        (s.pc.toNat + 2 < s.i.toNat ∨ s.i.toNat + x.toNat < s.pc.toNat + 2 → hi = s.mem.read (s.pc.toNat + 2)) ∧
        (s.pc.toNat + 3 < s.i.toNat ∨ s.i.toNat + x.toNat < s.pc.toNat + 3 → lo = s.mem.read (s.pc.toNat + 3))) ∧
    (fetched s = some (.ldB x) → s.i.toNat + 3 ≤ 4096 →
      ∃ t hi lo, step s = .next t ∧ fetch t = some (wordOfBytes hi lo) ∧
        (s.i.toNat = s.pc.toNat + 2 → hi.toNat = (s.reg x).toNat / 100) ∧
        (s.i.toNat + 1 = s.pc.toNat + 2 → hi.toNat = (s.reg x).toNat / 10 % 10) ∧
        (s.i.toNat + 2 = s.pc.toNat + 2 → hi.toNat = (s.reg x).toNat % 10) ∧
        (s.pc.toNat + 2 < s.i.toNat ∨ s.i.toNat + 2 < s.pc.toNat + 2 → hi = s.mem.read (s.pc.toNat + 2)) ∧
        (s.i.toNat = s.pc.toNat + 3 → lo.toNat = (s.reg x).toNat / 100) ∧
        (s.i.toNat + 1 = s.pc.toNat + 3 → lo.toNat = (s.reg x).toNat / 10 % 10) ∧
        (s.i.toNat + 2 = s.pc.toNat + 3 → lo.toNat = (s.reg x).toNat % 10) ∧
        (s.pc.toNat + 3 < s.i.toNat ∨ s.i.toNat + 2 < s.pc.toNat + 3 → lo = s.mem.read (s.pc.toNat + 3)))

/-! ### Timers, input, random (spec/44_timers.md, 45_input.md, 47_random.md) -/

/-- LD Vx, DT; LD DT, Vx; LD ST, Vx, in the execute phase. -/
def Obligations.TimerLoadsMoveOneByte : Prop :=
  ∀ (x : Nibble) (s : State),
    (∃ t, exec (.ldVxDt x) s = .next t ∧ t.reg x = s.dt ∧ t.pc = s.pc + 2 ∧ (∀ j, j ≠ x → t.reg j = s.reg j) ∧
      SameExcept [.regs, .pc] s t) ∧
    (∃ t, exec (.ldDtVx x) s = .next t ∧ t.dt = s.reg x ∧ t.pc = s.pc + 2 ∧ SameExcept [.dt, .pc] s t) ∧
    (∃ t, exec (.ldStVx x) s = .next t ∧ t.st = s.reg x ∧ t.pc = s.pc + 2 ∧ SameExcept [.st, .pc] s t)

/-- SKP and SKNP: the whole register numbers the key; 16 or more ends the run (that the error is fatal is the spec's
decision D21; log 18; the halted state its decision D4; log 1). -/
def Obligations.KeySkipsReadOneLatch : Prop :=
  ∀ (x : Nibble) (s : State),
    (∀ k : Fin 16, (s.reg x).toNat = k.val →
      (∃ t, exec (.skp x) s = .next t ∧ t.pc = (if s.keys[k] then s.pc + 4 else s.pc + 2) ∧ SameExcept [.pc] s t) ∧
      (∃ t, exec (.sknp x) s = .next t ∧ t.pc = (if s.keys[k] then s.pc + 2 else s.pc + 4) ∧ SameExcept [.pc] s t)) ∧
    (16 ≤ (s.reg x).toNat → HaltsWith (exec (.skp x) s) s .keyIndexOutOfRange ∧
      HaltsWith (exec (.sknp x) s) s .keyIndexOutOfRange)

/-- LD Vx, K: the lowest latched key goes to `V[x]`; with no key latched nothing is written and `PC` stays. -/
def Obligations.KeyWaitTakesLowestKey : Prop :=
  ∀ (x : Nibble) (s : State),
    (∀ k : Fin 16, s.keys[k] = true → (∀ j : Fin 16, j < k → s.keys[j] = false) →
      ∃ t, exec (.ldVxK x) s = .next t ∧ (t.reg x).toNat = k.val ∧ t.pc = s.pc + 2 ∧
        (∀ j, j ≠ x → t.reg j = s.reg j) ∧ SameExcept [.regs, .pc] s t) ∧
    ((∀ k : Fin 16, s.keys[k] = false) → exec (.ldVxK x) s = .next s)

/-- RND Vx, kk: the random byte under the mask. Which free value a draw takes, and the counter, are the model's own
(log 3); the statement holds for every value of the counter. -/
def Obligations.RandomByteUnderMask : Prop :=
  ∀ (x : Nibble) (kk : Byte) (s : State), ∃ t, exec (.rnd x kk) s = .next t ∧
    (∀ k, (t.reg x).getLsbD k = ((Config.rnd s.draws).getLsbD k && kk.getLsbD k)) ∧ t.draws = s.draws + 1 ∧
    t.pc = s.pc + 2 ∧ (∀ j, j ≠ x → t.reg j = s.reg j) ∧ SameExcept [.regs, .pc, .draws] s t

/-- No instruction but RND sees the draw: with another counter the same instruction does the same. -/
def Obligations.OnlyRndSeesTheDraw : Prop :=
  ∀ (i : Instr) (s t : State) (n : Nat), (∀ x kk, i ≠ .rnd x kk) → exec i s = .next t →
    exec i { s with draws := n } = .next { t with draws := n }

/-! ### Display (spec/46_display.md) -/

/-- CLS, whatever the ignored nibble: every pixel off, nothing else but `PC`. That bits 11:8 are ignored is R50, the
spec's own decision D8 (log 9). -/
def Obligations.ClearScreenZeroesEveryPixel : Prop :=
  ∀ (z : Nibble) (s : State), ∃ t, exec (.cls z) s = .next t ∧
    (∀ (px : Fin 64) (py : Fin 32), Framebuffer.pixel t.fb px py = false) ∧ t.pc = s.pc + 2 ∧ SameExcept [.fb, .pc] s t

/-- DRW: the row-by-row XOR of R111 toggles exactly the pixels a 1 bit of the sprite reaches, with both coordinates
wrapped. Bit 7 leftmost, rows downward and the sampling of `V[x]`, `V[y]`, `I` before any write are the spec's
decision D17 (log 17), the bounds check at height 0 its decision D20 (log 12); past the end of memory the run halts and
nothing is drawn (D4; log 1). -/
def Obligations.DrawTogglesExactlyTheSprite : Prop :=
  ∀ (x y n : Nibble) (s : State),
    (s.i.toNat + n.toNat ≤ 4096 → ∃ t, exec (.drw x y n) s = .next t ∧
      (∀ (px : Fin 64) (py : Fin 32), Framebuffer.pixel t.fb px py ≠ Framebuffer.pixel s.fb px py ↔
        SpriteCovers s x y n px py) ∧
      t.pc = s.pc + 2 ∧ (∀ j, j ≠ 15 → t.reg j = s.reg j) ∧ SameExcept [.regs, .fb, .pc] s t) ∧
    (4096 < s.i.toNat + n.toNat → HaltsWith (exec (.drw x y n) s) s .memoryOutOfBounds)

/-- DRW: `VF` is 1 exactly when at least one pixel that was on is off after it, and 0 otherwise. -/
def Obligations.CollisionIffPixelTurnedOff : Prop :=
  ∀ (x y n : Nibble) (s : State), s.i.toNat + n.toNat ≤ 4096 → ∃ t, exec (.drw x y n) s = .next t ∧
    (t.reg 15 = 0 ∨ t.reg 15 = 1) ∧
    (t.reg 15 = 1 ↔ ∃ (px : Fin 64) (py : Fin 32),
      Framebuffer.pixel s.fb px py = true ∧ Framebuffer.pixel t.fb px py = false)

/-! ### Rules about every instruction -/

/-- A byte of memory changes only under LD B and LD [I], and only inside the bytes they store to. -/
def Obligations.OnlyStoresChangeMemory : Prop :=
  ∀ (i : Instr) (s t : State) (a : Nat), exec i s = .next t → t.mem.read a ≠ s.mem.read a →
    (∃ x, i = .ldB x ∧ baseAddress s ≤ a ∧ a < baseAddress s + 3) ∨
    (∃ x, i = .ldMemVx x ∧ baseAddress s ≤ a ∧ a < baseAddress s + (x.toNat + 1))

/-- `VF` changes only under the six instructions of R11, or where it is the destination (D27 for the silent ones;
log 15). -/
def Obligations.VfWritersAreTheTable : Prop :=
  ∀ (i : Instr) (s t : State), exec i s = .next t → t.reg 15 ≠ s.reg 15 →
    (∃ x y, i = .addReg x y ∨ i = .sub x y ∨ i = .subn x y ∨ i = .shr x y ∨ i = .shl x y) ∨
    (∃ x y n, i = .drw x y n) ∨
    (∃ y kk, i = .ldImm 15 kk ∨ i = .addImm 15 kk ∨ i = .rnd 15 kk ∨ i = .ldReg 15 y ∨ i = .orReg 15 y ∨
      i = .andReg 15 y ∨ i = .xorReg 15 y) ∨
    i = .ldVxDt 15 ∨ i = .ldVxK 15 ∨ i = .ldVxMem 15

/-- Which instructions write the other storages, over all instructions: the framebuffer CLS and DRW, the stack CALL,
`SP` CALL and RET, `I` its three loads, each timer its own load; the key latches and `IR` none. -/
def Obligations.SpecialStateHasOnlyItsWriters : Prop :=
  ∀ (i : Instr) (s t : State), exec i s = .next t →
    (t.fb ≠ s.fb → (∃ z, i = .cls z) ∨ ∃ x y n, i = .drw x y n) ∧
    (t.stack ≠ s.stack → ∃ nnn, i = .call nnn) ∧
    (t.sp ≠ s.sp → (∃ nnn, i = .call nnn) ∨ ∃ z, i = .ret z) ∧
    (t.i ≠ s.i → (∃ nnn, i = .ldI nnn) ∨ (∃ x, i = .addI x) ∨ ∃ x, i = .ldF x) ∧
    (t.dt ≠ s.dt → ∃ x, i = .ldDtVx x) ∧ (t.st ≠ s.st → ∃ x, i = .ldStVx x) ∧ t.keys = s.keys ∧ t.ir = s.ir

/-! ### Reset and the host (spec/70_reset_and_hazards.md, 10_state.md) -/

/-- A program image that fits gives the reset state with the image at 512 and everything else zero, the font aside. The
font's bytes are the parameter FONT (D23, G2; log 7); IR and STATUS at reset are the spec's decisions D24 and D4. -/
def Obligations.CreateGivesResetState : Prop :=
  ∀ image : List Byte, image.length ≤ 3584 → ∃ t, State.create image = .ok t ∧
    (∀ j, t.reg j = 0) ∧ t.i = 0 ∧ t.pc.toNat = 512 ∧ t.sp = 0 ∧ (∀ j : Fin 16, t.stack[j] = 0) ∧ t.dt = 0 ∧ t.st = 0 ∧
    (∀ (px : Fin 64) (py : Fin 32), Framebuffer.pixel t.fb px py = false) ∧ (∀ k : Fin 16, t.keys[k] = false) ∧
    t.ir = 0 ∧ t.status = .running ∧
    (∀ (k : Nat) (h : k < image.length), t.mem.read (512 + k) = image[k]) ∧
    (∀ a, a < 80 → t.mem.read a = params.font.getD a 0) ∧
    (∀ a, 80 ≤ a → a < 512 ∨ 512 + image.length ≤ a → t.mem.read a = 0)

/-- An image of more than 3584 bytes is refused and no state is produced; any other is accepted. That the image is an
argument of reset is the spec's decision D30. -/
def Obligations.CreateRefusesLargeImage : Prop :=
  ∀ image : List Byte,
    (3584 < image.length → State.create image = .error .programTooLarge) ∧
    (image.length ≤ 3584 → ∃ t, State.create image = .ok t)

/-- `set_key` sets one latch and nothing else; an index of 16 or more is an error. The 16-bit port ORs its bits in
(ports: the spec's decision D2; log 22). That a halted block latches a key too is the model's choice (log 31). -/
def Obligations.SetKeyLatchesOneKey : Prop :=
  ∀ (s : State) (index : Nat),
    (index < 16 → ∃ t, setKey index s = .ok t ∧
      (∀ k : Fin 16, t.keys[k] = (decide (k.val = index) || s.keys[k])) ∧ SameExcept [.keys] s t) ∧
    (16 ≤ index → setKey index s = .error .keyIndexOutOfRange) ∧
    (∀ bits : BitVec 16, (∀ k : Fin 16, (keySetPort bits s).keys[k] = (s.keys[k] || bits.getLsbD k)) ∧
      SameExcept [.keys] s (keySetPort bits s))

/-- `read_pixel` reads the framebuffer inside its bounds and fails outside them, never clamping or wrapping (D2, D29). -/
def Obligations.ReadPixelFailsOutside : Prop :=
  ∀ s : State,
    (∀ (px : Fin 64) (py : Fin 32), readPixel px.val py.val s = .ok (Framebuffer.pixel s.fb px py)) ∧
    (∀ x y : Nat, 64 ≤ x ∨ 32 ≤ y → readPixel x y s = .error .coordinateOutOfRange)

/-- A word placed where the step fetches is fetched, and nothing but its two bytes changes. The placing is the model's
own (log 21, log 30). -/
def Obligations.PlacedWordIsFetched : Prop :=
  ∀ (s : State) (w : Nat), s.mem.wf = true → s.pc.toNat + 1 < 4096 → w < 65536 →
    fetch (s.withFetchWord 16 w) = some (BitVec.ofNat 16 w) ∧ SameExcept [.mem] s (s.withFetchWord 16 w) ∧
    (∀ a, a ≠ s.pc.toNat → a ≠ s.pc.toNat + 1 → (s.withFetchWord 16 w).mem.read a = s.mem.read a)

/-! ### Invariants and headline results -/

/-- The invariant holds at reset, with no program placed. Its clauses: `SP` and the valid stack entries are R27, the
bound of `PC` is R14, and the canonical form of memory is the model's own (log 20). -/
def Obligations.InvariantAtReset : Prop := State.reset.Inv

/-- Every step keeps the invariant: memory canonical, `SP` in 0..16, every valid stack entry at most 4094, and `PC` at
most 0x10FE, the largest value any rule can produce (R14). It holds from every state that satisfies it, halted or running. The canonical
form of memory is the model's own (log 20). -/
def Obligations.InvariantKeptByEveryStep : Prop :=
  ∀ s t : State, s.Inv → step s = .next t → t.Inv

/-- Every move of the host keeps the invariant too: reset with an image (an argument of reset by the spec's decision D30;
log 28), setting a key (in a halted block too; log 31), a step. The canonical form of memory is the model's own (log 20),
the bound of `PC` is R14. -/
def Obligations.InvariantKeptByEveryHostMove : Prop :=
  ∀ (m : HostMove) (s t : State), s.Inv → hostMove m s = .next t → t.Inv

/-- From a state that satisfies the invariant every step answers a next state, and a running state's step is one of the
outcomes R9 names: completed, completed with the report, or fatal. That `Fatal` is a halted state, and that a halted
state answers itself, is the spec's decision D4 (log 1). -/
def Obligations.EveryStepHasASpecOutcome : Prop :=
  ∀ s : State, s.Inv → (∃ t, step s = .next t) ∧ specStep s ≠ .outside ∧ (s.status = .running → specStep s ≠ .disabled)

/-- What no instruction can see never matters: from two states that differ only in `IR` and in stack slots above `SP`,
a step leads to two such states again (R17, R24). That `IR` and the slots keep their old contents is the spec's choice
(U15). -/
def Obligations.StaleStateIsUnobservable : Prop :=
  ∀ s t s' : State, StaleEquiv s t → s.sp.toNat ≤ 16 → step s = .next s' →
    ∃ t', step t = .next t' ∧ StaleEquiv s' t'
end

