-- ==== Sys2Proof/Laws/Decode.lean ====
section
/-! SUPPORT. The fields of an assembled word, and the bytes of a word. -/

namespace Sys2Proof

section X8
variable (op x : Nibble) (k : Byte)
@[simp] theorem opField_encX8 : opField (encX8 op x k) = op := by
  apply BitVec.eq_of_getLsbD_eq
  intro i hi
  simp only [opField, encX8, BitVec.getLsbD_extractLsb', BitVec.getLsbD_append, hi, decide_true, Bool.true_and]
  split_ifs <;> first | omega | (congr 1; omega)
@[simp] theorem xField_encX8 : xField (encX8 op x k) = x := by
  apply BitVec.eq_of_getLsbD_eq
  intro i hi
  simp only [xField, encX8, BitVec.getLsbD_extractLsb', BitVec.getLsbD_append, hi, decide_true, Bool.true_and]
  split_ifs <;> first | omega | (congr 1; omega)
@[simp] theorem kkField_encX8 : kkField (encX8 op x k) = k := by
  apply BitVec.eq_of_getLsbD_eq
  intro i hi
  simp only [kkField, encX8, BitVec.getLsbD_extractLsb', BitVec.getLsbD_append, hi, decide_true, Bool.true_and]
  split_ifs <;> first | omega | (congr 1; omega)
end X8

section Nnn
variable (op : Nibble) (nnn : Addr)
@[simp] theorem opField_encNnn : opField (encNnn op nnn) = op := by
  apply BitVec.eq_of_getLsbD_eq
  intro i hi
  simp only [opField, encNnn, BitVec.getLsbD_extractLsb', BitVec.getLsbD_append, hi, decide_true, Bool.true_and]
  split_ifs <;> first | omega | (congr 1; omega)
@[simp] theorem nnnField_encNnn : nnnField (encNnn op nnn) = nnn := by
  apply BitVec.eq_of_getLsbD_eq
  intro i hi
  simp only [nnnField, encNnn, BitVec.getLsbD_extractLsb', BitVec.getLsbD_append, hi, decide_true, Bool.true_and]
  split_ifs <;> first | omega | (congr 1; omega)
end Nnn

section Xyn
variable (op x y n : Nibble)
@[simp] theorem opField_encXyn : opField (encXyn op x y n) = op := by
  apply BitVec.eq_of_getLsbD_eq
  intro i hi
  simp only [opField, encXyn, BitVec.getLsbD_extractLsb', BitVec.getLsbD_append, hi, decide_true, Bool.true_and]
  split_ifs <;> first | omega | (congr 1; omega)
@[simp] theorem xField_encXyn : xField (encXyn op x y n) = x := by
  apply BitVec.eq_of_getLsbD_eq
  intro i hi
  simp only [xField, encXyn, BitVec.getLsbD_extractLsb', BitVec.getLsbD_append, hi, decide_true, Bool.true_and]
  split_ifs <;> first | omega | (congr 1; omega)
@[simp] theorem yField_encXyn : yField (encXyn op x y n) = y := by
  apply BitVec.eq_of_getLsbD_eq
  intro i hi
  simp only [yField, encXyn, BitVec.getLsbD_extractLsb', BitVec.getLsbD_append, hi, decide_true, Bool.true_and]
  split_ifs <;> first | omega | (congr 1; omega)
@[simp] theorem nField_encXyn : nField (encXyn op x y n) = n := by
  apply BitVec.eq_of_getLsbD_eq
  intro i hi
  simp only [nField, encXyn, BitVec.getLsbD_extractLsb', BitVec.getLsbD_append, hi, decide_true, Bool.true_and]
  split_ifs <;> first | omega | (congr 1; omega)
end Xyn

/-- The bits the mask of a one-operation group keeps: the high nibble (R49). -/
theorem and_F000 (w : Word) : w &&& 0xF000#16 = encNnn (opField w) 0 := by
  apply BitVec.eq_of_getLsbD_eq
  intro i hi
  simp only [opField, encNnn, BitVec.getLsbD_and, BitVec.getLsbD_extractLsb', BitVec.getLsbD_append]
  interval_cases i <;> simp

/-- The bits the mask of a low-byte key keeps: high nibble and low byte (R50). -/
theorem and_F0FF (w : Word) : w &&& 0xF0FF#16 = encX8 (opField w) 0 (kkField w) := by
  apply BitVec.eq_of_getLsbD_eq
  intro i hi
  simp only [opField, kkField, encX8, BitVec.getLsbD_and, BitVec.getLsbD_extractLsb', BitVec.getLsbD_append]
  interval_cases i <;> simp

/-- The bits the mask of group 0x8 keeps: high nibble and low nibble (R50). -/
theorem and_F00F (w : Word) : w &&& 0xF00F#16 = encXyn (opField w) 0 0 (nField w) := by
  apply BitVec.eq_of_getLsbD_eq
  intro i hi
  simp only [opField, nField, encXyn, BitVec.getLsbD_and, BitVec.getLsbD_extractLsb', BitVec.getLsbD_append]
  interval_cases i <;> simp

/-- A word's two bytes, high byte first, make the word again (R32). -/
@[simp] theorem wordOfBytes_bytes (w : Word) : wordOfBytes (highByte w) (lowByte w) = w := by
  apply BitVec.eq_of_getLsbD_eq
  intro i hi
  simp only [wordOfBytes, highByte, lowByte, BitVec.getLsbD_append, BitVec.getLsbD_extractLsb']
  by_cases h : i < 8
  · simp [h]
  · have h1 : i - 8 < 8 := by omega
    have h2 : 8 + (i - 8) = i := by omega
    simp [h, h1, h2]

/-! ### A word is the words of its fields -/

/-- A word from its high nibble, `x` and low byte (R46). -/
theorem encX8_fields (w : Word) : encX8 (opField w) (xField w) (kkField w) = w := by
  apply BitVec.eq_of_getLsbD_eq
  intro i hi
  simp only [encX8, opField, xField, kkField, BitVec.getLsbD_extractLsb', BitVec.getLsbD_append]
  interval_cases i <;> simp

/-- A word from its high nibble and address field (R46). -/
theorem encNnn_fields (w : Word) : encNnn (opField w) (nnnField w) = w := by
  apply BitVec.eq_of_getLsbD_eq
  intro i hi
  simp only [encNnn, opField, nnnField, BitVec.getLsbD_extractLsb', BitVec.getLsbD_append]
  interval_cases i <;> simp

/-- A word from its four nibbles (R46). -/
theorem encXyn_fields (w : Word) : encXyn (opField w) (xField w) (yField w) (nField w) = w := by
  apply BitVec.eq_of_getLsbD_eq
  intro i hi
  simp only [encXyn, opField, xField, yField, nField, BitVec.getLsbD_extractLsb', BitVec.getLsbD_append]
  interval_cases i <;> simp

/-- The sixteen values of a nibble. -/
theorem nibble_cases (o : Nibble) : o = 0 ∨ o = 1 ∨ o = 2 ∨ o = 3 ∨ o = 4 ∨ o = 5 ∨ o = 6 ∨ o = 7 ∨ o = 8 ∨ o = 9 ∨
    o = 10 ∨ o = 11 ∨ o = 12 ∨ o = 13 ∨ o = 14 ∨ o = 15 := by
  have := o.isLt
  simp only [BitVec.toNat_eq]
  simp
  omega

/-- The high nibble in numbers. -/
theorem opField_toNat (w : Word) : (opField w).toNat = w.toNat / 4096 := by
  simp [opField, BitVec.extractLsb'_toNat, Nat.shiftRight_eq_div_pow]
  omega

/-- The low byte in numbers. -/
theorem kkField_toNat (w : Word) : (kkField w).toNat = w.toNat % 256 := by
  simp [kkField, BitVec.extractLsb'_toNat]

/-- The low nibble in numbers. -/
theorem nField_toNat (w : Word) : (nField w).toNat = w.toNat % 16 := by
  simp [nField, BitVec.extractLsb'_toNat]

end Sys2Proof
end

