-- ==== Sys2Proof/Laws/Memory.lean ====
section
/-! SUPPORT. The laws of memory: a read after a write, what a write leaves alone, and that every memory operation keeps
the canonical form. -/

namespace Sys2Proof.Machine

theorem Memory.wf_reset : State.reset.mem.wf = true := rfl

@[simp] theorem Memory.read_nil (a : Nat) : Memory.read [] a = resetByte a := rfl

theorem Memory.read_cons (b : Nat) (w : Byte) (m : Memory) (a : Nat) :
    Memory.read ((b, w) :: m) a = if b = a then w else m.read a := rfl

/-- The cell listed for a byte reads back, over any rest that does not list the address. -/
theorem Memory.read_cellOf_append (a : Nat) (val : Byte) (m : Memory) (c : Nat) :
    Memory.read (cellOf a val ++ m) c = if c = a ∧ val ≠ resetByte a then val else m.read c := by
  unfold cellOf
  by_cases h : val = resetByte a
  · simp [h]
  · by_cases hc : c = a
    · simp [h, hc, Memory.read_cons]
    · simp [h, hc, Memory.read_cons, Ne.symm hc]

/-- A write leaves every other address alone (R36), whatever the list. -/
theorem Memory.read_write_ne (m : Memory) (a c : Nat) (val : Byte) (h : c ≠ a) :
    (m.write a val).read c = m.read c := by
  induction m with
  | nil => simpa [Memory.write, h] using Memory.read_cellOf_append a val [] c
  | cons hd m ih =>
    obtain ⟨b, w⟩ := hd
    unfold Memory.write
    split
    · simp [Memory.read_cellOf_append, h]
    · split
      · rename_i hab
        subst hab
        simp [Memory.read_cellOf_append, h, Memory.read_cons, Ne.symm h]
      · simp [Memory.read_cons, ih]

/-- Below the first listed address memory reads as after reset. -/
theorem Memory.read_below {lo : Nat} {m : Memory} (h : Memory.wfFrom lo m = true) {a : Nat} (ha : a < lo) :
    m.read a = resetByte a := by
  induction m generalizing lo with
  | nil => rfl
  | cons hd m ih =>
    obtain ⟨b, w⟩ := hd
    simp only [Memory.wfFrom, Bool.and_eq_true, decide_eq_true_eq] at h
    rw [Memory.read_cons, if_neg (by omega), ih h.2 (by omega)]

/-- The byte written is the byte read, in canonical memory. -/
theorem Memory.read_write_self_from {lo : Nat} {m : Memory} (h : Memory.wfFrom lo m = true) (a : Nat) (val : Byte) :
    (m.write a val).read a = val := by
  induction m generalizing lo with
  | nil =>
    have := Memory.read_cellOf_append a val [] a
    by_cases hv : val = resetByte a <;> simp_all [Memory.write]
  | cons hd m ih =>
    obtain ⟨b, w⟩ := hd
    simp only [Memory.wfFrom, Bool.and_eq_true, decide_eq_true_eq] at h
    unfold Memory.write
    split
    · rename_i hab
      rw [Memory.read_cellOf_append, Memory.read_cons, if_neg (show ¬ b = a by omega), Memory.read_below h.2 (a := a) (by omega)]
      by_cases hv : val = resetByte a <;> simp [hv]
    · split
      · rename_i hab
        rw [Memory.read_cellOf_append, Memory.read_below h.2 (a := a) (by omega)]
        by_cases hv : val = resetByte a <;> simp [hv]
      · rename_i hab
        rw [Memory.read_cons, if_neg (Ne.symm hab), ih h.2]

theorem Memory.read_write_self {m : Memory} (h : m.wf = true) (a : Nat) (val : Byte) :
    (m.write a val).read a = val := Memory.read_write_self_from h a val

/-- The canonical form from a higher address is canonical from a lower one. -/
theorem Memory.wfFrom_mono {lo lo' : Nat} {m : Memory} (h : Memory.wfFrom lo m = true) (hlo : lo' ≤ lo) :
    Memory.wfFrom lo' m = true := by
  cases m with
  | nil => rfl
  | cons hd m =>
    obtain ⟨b, w⟩ := hd
    simp only [Memory.wfFrom, Bool.and_eq_true, decide_eq_true_eq] at h ⊢
    exact ⟨⟨⟨by omega, h.1.1.2⟩, h.1.2⟩, h.2⟩

theorem Memory.wfFrom_cellOf_append {lo a : Nat} {m : Memory} (val : Byte) (hlo : lo ≤ a) (ha : a < memSize)
    (h : Memory.wfFrom (a + 1) m = true) : Memory.wfFrom lo (cellOf a val ++ m) = true := by
  unfold cellOf
  by_cases hv : val = resetByte a
  · simpa [hv] using Memory.wfFrom_mono h (by omega)
  · simp [hv, Memory.wfFrom, hlo, ha, h]

theorem Memory.wfFrom_write {lo : Nat} {m : Memory} (h : Memory.wfFrom lo m = true) {a : Nat} (hlo : lo ≤ a)
    (ha : a < memSize) (val : Byte) : Memory.wfFrom lo (m.write a val) = true := by
  induction m generalizing lo with
  | nil => simpa [Memory.write] using Memory.wfFrom_cellOf_append (m := []) val hlo ha rfl
  | cons hd m ih =>
    obtain ⟨b, w⟩ := hd
    have h' := h
    simp only [Memory.wfFrom, Bool.and_eq_true, decide_eq_true_eq] at h
    unfold Memory.write
    split
    · refine Memory.wfFrom_cellOf_append val hlo ha ?_
      simp only [Memory.wfFrom, Bool.and_eq_true, decide_eq_true_eq]
      exact ⟨⟨⟨by omega, h.1.1.2⟩, h.1.2⟩, h.2⟩
    · split
      · rename_i hab
        exact Memory.wfFrom_cellOf_append val hlo ha (hab ▸ h.2)
      · simp only [Memory.wfFrom, Bool.and_eq_true, decide_eq_true_eq]
        exact ⟨h.1, ih h.2 (by omega)⟩

/-- A write inside the address space keeps the canonical form. -/
theorem Memory.wf_write {m : Memory} (h : m.wf = true) {a : Nat} (ha : a < memSize) (val : Byte) :
    (m.write a val).wf = true := Memory.wfFrom_write h (Nat.zero_le a) ha val

/-- A block write inside the address space keeps the canonical form. -/
theorem Memory.wf_writeBytes {m : Memory} (h : m.wf = true) {a : Nat} (bs : List Byte)
    (ha : a + bs.length ≤ memSize) : (m.writeBytes a bs).wf = true := by
  induction bs generalizing m a with
  | nil => exact h
  | cons b bs ih =>
    simp only [List.length_cons] at ha
    exact ih (Memory.wf_write h (by omega) b) (by omega)

/-- A block write leaves every address outside the block alone, whatever the list. -/
theorem Memory.read_writeBytes_outside (m : Memory) (a : Nat) (bs : List Byte) (c : Nat)
    (h : c < a ∨ a + bs.length ≤ c) : (m.writeBytes a bs).read c = m.read c := by
  induction bs generalizing m a with
  | nil => rfl
  | cons b bs ih =>
    simp only [List.length_cons] at h
    rw [Memory.writeBytes, ih _ _ (by omega), Memory.read_write_ne _ _ _ _ (by omega)]

/-- A block write inside the address space is read back byte by byte, in canonical memory. -/
theorem Memory.read_writeBytes_inside {m : Memory} (h : m.wf = true) (a : Nat) (bs : List Byte)
    (ha : a + bs.length ≤ memSize) (j : Nat) (hj : j < bs.length) :
    (m.writeBytes a bs).read (a + j) = bs[j] := by
  induction bs generalizing m a j with
  | nil => simp at hj
  | cons b bs ih =>
    simp only [List.length_cons] at ha hj
    cases j with
    | zero =>
      rw [Memory.writeBytes, Memory.read_writeBytes_outside _ _ _ _ (by omega)]
      exact Memory.read_write_self h a b
    | succ j =>
      have := ih (Memory.wf_write h (a := a) (by omega) b) (a + 1) (by omega) j (by omega)
      rw [Memory.writeBytes, show a + (j + 1) = a + 1 + j by omega, this]
      rfl

@[simp] theorem Memory.length_readBytes (m : Memory) (a n : Nat) : (m.readBytes a n).length = n := by
  induction n generalizing a with
  | zero => rfl
  | succ n ih => simp [Memory.readBytes, ih]

/-- Byte `j` of a block read is the byte at `a + j`. -/
theorem Memory.getElem_readBytes (m : Memory) (a n j : Nat) (hj : j < (m.readBytes a n).length) :
    (m.readBytes a n)[j] = m.read (a + j) := by
  induction n generalizing a j with
  | zero => simp [Memory.readBytes] at hj
  | succ n ih =>
    cases j with
    | zero => rfl
    | succ j =>
      have hj' : j < (m.readBytes (a + 1) n).length := by simpa [Memory.readBytes] using hj
      simpa [Memory.readBytes, Nat.add_assoc, Nat.add_comm, Nat.add_left_comm] using ih (a + 1) j hj'

end Sys2Proof.Machine
end

