-- ==== Sys2Proof/Laws/State.lean ====
section
/-! SUPPORT. One lemma per field per update of State, and what `reg` reads after an update. -/

namespace Sys2Proof.Machine

variable (s : State)

/-! ### setReg -/

@[simp] theorem State.setReg_v (x : Nibble) (val : Byte) : (s.setReg x val).v = s.v.set x.toNat val := rfl
@[simp] theorem State.setReg_i (x : Nibble) (val : Byte) : (s.setReg x val).i = s.i := rfl
@[simp] theorem State.setReg_pc (x : Nibble) (val : Byte) : (s.setReg x val).pc = s.pc := rfl
@[simp] theorem State.setReg_sp (x : Nibble) (val : Byte) : (s.setReg x val).sp = s.sp := rfl
@[simp] theorem State.setReg_stack (x : Nibble) (val : Byte) : (s.setReg x val).stack = s.stack := rfl
@[simp] theorem State.setReg_dt (x : Nibble) (val : Byte) : (s.setReg x val).dt = s.dt := rfl
@[simp] theorem State.setReg_st (x : Nibble) (val : Byte) : (s.setReg x val).st = s.st := rfl
@[simp] theorem State.setReg_fb (x : Nibble) (val : Byte) : (s.setReg x val).fb = s.fb := rfl
@[simp] theorem State.setReg_keys (x : Nibble) (val : Byte) : (s.setReg x val).keys = s.keys := rfl
@[simp] theorem State.setReg_ir (x : Nibble) (val : Byte) : (s.setReg x val).ir = s.ir := rfl
@[simp] theorem State.setReg_status (x : Nibble) (val : Byte) : (s.setReg x val).status = s.status := rfl
@[simp] theorem State.setReg_mem (x : Nibble) (val : Byte) : (s.setReg x val).mem = s.mem := rfl
@[simp] theorem State.setReg_draws (x : Nibble) (val : Byte) : (s.setReg x val).draws = s.draws := rfl

/-! ### setRegs -/

@[simp] theorem State.setRegs_v (val : Vector Byte 16) : (s.setRegs val).v = val := rfl
@[simp] theorem State.setRegs_i (val : Vector Byte 16) : (s.setRegs val).i = s.i := rfl
@[simp] theorem State.setRegs_pc (val : Vector Byte 16) : (s.setRegs val).pc = s.pc := rfl
@[simp] theorem State.setRegs_sp (val : Vector Byte 16) : (s.setRegs val).sp = s.sp := rfl
@[simp] theorem State.setRegs_stack (val : Vector Byte 16) : (s.setRegs val).stack = s.stack := rfl
@[simp] theorem State.setRegs_dt (val : Vector Byte 16) : (s.setRegs val).dt = s.dt := rfl
@[simp] theorem State.setRegs_st (val : Vector Byte 16) : (s.setRegs val).st = s.st := rfl
@[simp] theorem State.setRegs_fb (val : Vector Byte 16) : (s.setRegs val).fb = s.fb := rfl
@[simp] theorem State.setRegs_keys (val : Vector Byte 16) : (s.setRegs val).keys = s.keys := rfl
@[simp] theorem State.setRegs_ir (val : Vector Byte 16) : (s.setRegs val).ir = s.ir := rfl
@[simp] theorem State.setRegs_status (val : Vector Byte 16) : (s.setRegs val).status = s.status := rfl
@[simp] theorem State.setRegs_mem (val : Vector Byte 16) : (s.setRegs val).mem = s.mem := rfl
@[simp] theorem State.setRegs_draws (val : Vector Byte 16) : (s.setRegs val).draws = s.draws := rfl

/-! ### setI -/

@[simp] theorem State.setI_v (val : Word) : (s.setI val).v = s.v := rfl
@[simp] theorem State.setI_i (val : Word) : (s.setI val).i = val := rfl
@[simp] theorem State.setI_pc (val : Word) : (s.setI val).pc = s.pc := rfl
@[simp] theorem State.setI_sp (val : Word) : (s.setI val).sp = s.sp := rfl
@[simp] theorem State.setI_stack (val : Word) : (s.setI val).stack = s.stack := rfl
@[simp] theorem State.setI_dt (val : Word) : (s.setI val).dt = s.dt := rfl
@[simp] theorem State.setI_st (val : Word) : (s.setI val).st = s.st := rfl
@[simp] theorem State.setI_fb (val : Word) : (s.setI val).fb = s.fb := rfl
@[simp] theorem State.setI_keys (val : Word) : (s.setI val).keys = s.keys := rfl
@[simp] theorem State.setI_ir (val : Word) : (s.setI val).ir = s.ir := rfl
@[simp] theorem State.setI_status (val : Word) : (s.setI val).status = s.status := rfl
@[simp] theorem State.setI_mem (val : Word) : (s.setI val).mem = s.mem := rfl
@[simp] theorem State.setI_draws (val : Word) : (s.setI val).draws = s.draws := rfl
@[simp] theorem State.setI_reg (val : Word) (j : Nibble) : (s.setI val).reg j = s.reg j := rfl

/-! ### setPc -/

@[simp] theorem State.setPc_v (val : Word) : (s.setPc val).v = s.v := rfl
@[simp] theorem State.setPc_i (val : Word) : (s.setPc val).i = s.i := rfl
@[simp] theorem State.setPc_pc (val : Word) : (s.setPc val).pc = val := rfl
@[simp] theorem State.setPc_sp (val : Word) : (s.setPc val).sp = s.sp := rfl
@[simp] theorem State.setPc_stack (val : Word) : (s.setPc val).stack = s.stack := rfl
@[simp] theorem State.setPc_dt (val : Word) : (s.setPc val).dt = s.dt := rfl
@[simp] theorem State.setPc_st (val : Word) : (s.setPc val).st = s.st := rfl
@[simp] theorem State.setPc_fb (val : Word) : (s.setPc val).fb = s.fb := rfl
@[simp] theorem State.setPc_keys (val : Word) : (s.setPc val).keys = s.keys := rfl
@[simp] theorem State.setPc_ir (val : Word) : (s.setPc val).ir = s.ir := rfl
@[simp] theorem State.setPc_status (val : Word) : (s.setPc val).status = s.status := rfl
@[simp] theorem State.setPc_mem (val : Word) : (s.setPc val).mem = s.mem := rfl
@[simp] theorem State.setPc_draws (val : Word) : (s.setPc val).draws = s.draws := rfl
@[simp] theorem State.setPc_reg (val : Word) (j : Nibble) : (s.setPc val).reg j = s.reg j := rfl

/-! ### advance -/

@[simp] theorem State.advance_v : s.advance.v = s.v := rfl
@[simp] theorem State.advance_i : s.advance.i = s.i := rfl
@[simp] theorem State.advance_pc : s.advance.pc = s.pc + 2 := rfl
@[simp] theorem State.advance_sp : s.advance.sp = s.sp := rfl
@[simp] theorem State.advance_stack : s.advance.stack = s.stack := rfl
@[simp] theorem State.advance_dt : s.advance.dt = s.dt := rfl
@[simp] theorem State.advance_st : s.advance.st = s.st := rfl
@[simp] theorem State.advance_fb : s.advance.fb = s.fb := rfl
@[simp] theorem State.advance_keys : s.advance.keys = s.keys := rfl
@[simp] theorem State.advance_ir : s.advance.ir = s.ir := rfl
@[simp] theorem State.advance_status : s.advance.status = s.status := rfl
@[simp] theorem State.advance_mem : s.advance.mem = s.mem := rfl
@[simp] theorem State.advance_draws : s.advance.draws = s.draws := rfl
@[simp] theorem State.advance_reg (j : Nibble) : s.advance.reg j = s.reg j := rfl

/-! ### setDt -/

@[simp] theorem State.setDt_v (val : Byte) : (s.setDt val).v = s.v := rfl
@[simp] theorem State.setDt_i (val : Byte) : (s.setDt val).i = s.i := rfl
@[simp] theorem State.setDt_pc (val : Byte) : (s.setDt val).pc = s.pc := rfl
@[simp] theorem State.setDt_sp (val : Byte) : (s.setDt val).sp = s.sp := rfl
@[simp] theorem State.setDt_stack (val : Byte) : (s.setDt val).stack = s.stack := rfl
@[simp] theorem State.setDt_dt (val : Byte) : (s.setDt val).dt = val := rfl
@[simp] theorem State.setDt_st (val : Byte) : (s.setDt val).st = s.st := rfl
@[simp] theorem State.setDt_fb (val : Byte) : (s.setDt val).fb = s.fb := rfl
@[simp] theorem State.setDt_keys (val : Byte) : (s.setDt val).keys = s.keys := rfl
@[simp] theorem State.setDt_ir (val : Byte) : (s.setDt val).ir = s.ir := rfl
@[simp] theorem State.setDt_status (val : Byte) : (s.setDt val).status = s.status := rfl
@[simp] theorem State.setDt_mem (val : Byte) : (s.setDt val).mem = s.mem := rfl
@[simp] theorem State.setDt_draws (val : Byte) : (s.setDt val).draws = s.draws := rfl
@[simp] theorem State.setDt_reg (val : Byte) (j : Nibble) : (s.setDt val).reg j = s.reg j := rfl

/-! ### setSt -/

@[simp] theorem State.setSt_v (val : Byte) : (s.setSt val).v = s.v := rfl
@[simp] theorem State.setSt_i (val : Byte) : (s.setSt val).i = s.i := rfl
@[simp] theorem State.setSt_pc (val : Byte) : (s.setSt val).pc = s.pc := rfl
@[simp] theorem State.setSt_sp (val : Byte) : (s.setSt val).sp = s.sp := rfl
@[simp] theorem State.setSt_stack (val : Byte) : (s.setSt val).stack = s.stack := rfl
@[simp] theorem State.setSt_dt (val : Byte) : (s.setSt val).dt = s.dt := rfl
@[simp] theorem State.setSt_st (val : Byte) : (s.setSt val).st = val := rfl
@[simp] theorem State.setSt_fb (val : Byte) : (s.setSt val).fb = s.fb := rfl
@[simp] theorem State.setSt_keys (val : Byte) : (s.setSt val).keys = s.keys := rfl
@[simp] theorem State.setSt_ir (val : Byte) : (s.setSt val).ir = s.ir := rfl
@[simp] theorem State.setSt_status (val : Byte) : (s.setSt val).status = s.status := rfl
@[simp] theorem State.setSt_mem (val : Byte) : (s.setSt val).mem = s.mem := rfl
@[simp] theorem State.setSt_draws (val : Byte) : (s.setSt val).draws = s.draws := rfl
@[simp] theorem State.setSt_reg (val : Byte) (j : Nibble) : (s.setSt val).reg j = s.reg j := rfl

/-! ### setKeys -/

@[simp] theorem State.setKeys_v (val : Vector Bool 16) : (s.setKeys val).v = s.v := rfl
@[simp] theorem State.setKeys_i (val : Vector Bool 16) : (s.setKeys val).i = s.i := rfl
@[simp] theorem State.setKeys_pc (val : Vector Bool 16) : (s.setKeys val).pc = s.pc := rfl
@[simp] theorem State.setKeys_sp (val : Vector Bool 16) : (s.setKeys val).sp = s.sp := rfl
@[simp] theorem State.setKeys_stack (val : Vector Bool 16) : (s.setKeys val).stack = s.stack := rfl
@[simp] theorem State.setKeys_dt (val : Vector Bool 16) : (s.setKeys val).dt = s.dt := rfl
@[simp] theorem State.setKeys_st (val : Vector Bool 16) : (s.setKeys val).st = s.st := rfl
@[simp] theorem State.setKeys_fb (val : Vector Bool 16) : (s.setKeys val).fb = s.fb := rfl
@[simp] theorem State.setKeys_keys (val : Vector Bool 16) : (s.setKeys val).keys = val := rfl
@[simp] theorem State.setKeys_ir (val : Vector Bool 16) : (s.setKeys val).ir = s.ir := rfl
@[simp] theorem State.setKeys_status (val : Vector Bool 16) : (s.setKeys val).status = s.status := rfl
@[simp] theorem State.setKeys_mem (val : Vector Bool 16) : (s.setKeys val).mem = s.mem := rfl
@[simp] theorem State.setKeys_draws (val : Vector Bool 16) : (s.setKeys val).draws = s.draws := rfl
@[simp] theorem State.setKeys_reg (val : Vector Bool 16) (j : Nibble) : (s.setKeys val).reg j = s.reg j := rfl

/-! ### setFb -/

@[simp] theorem State.setFb_v (val : Framebuffer) : (s.setFb val).v = s.v := rfl
@[simp] theorem State.setFb_i (val : Framebuffer) : (s.setFb val).i = s.i := rfl
@[simp] theorem State.setFb_pc (val : Framebuffer) : (s.setFb val).pc = s.pc := rfl
@[simp] theorem State.setFb_sp (val : Framebuffer) : (s.setFb val).sp = s.sp := rfl
@[simp] theorem State.setFb_stack (val : Framebuffer) : (s.setFb val).stack = s.stack := rfl
@[simp] theorem State.setFb_dt (val : Framebuffer) : (s.setFb val).dt = s.dt := rfl
@[simp] theorem State.setFb_st (val : Framebuffer) : (s.setFb val).st = s.st := rfl
@[simp] theorem State.setFb_fb (val : Framebuffer) : (s.setFb val).fb = val := rfl
@[simp] theorem State.setFb_keys (val : Framebuffer) : (s.setFb val).keys = s.keys := rfl
@[simp] theorem State.setFb_ir (val : Framebuffer) : (s.setFb val).ir = s.ir := rfl
@[simp] theorem State.setFb_status (val : Framebuffer) : (s.setFb val).status = s.status := rfl
@[simp] theorem State.setFb_mem (val : Framebuffer) : (s.setFb val).mem = s.mem := rfl
@[simp] theorem State.setFb_draws (val : Framebuffer) : (s.setFb val).draws = s.draws := rfl
@[simp] theorem State.setFb_reg (val : Framebuffer) (j : Nibble) : (s.setFb val).reg j = s.reg j := rfl

/-! ### setIr -/

@[simp] theorem State.setIr_v (val : Word) : (s.setIr val).v = s.v := rfl
@[simp] theorem State.setIr_i (val : Word) : (s.setIr val).i = s.i := rfl
@[simp] theorem State.setIr_pc (val : Word) : (s.setIr val).pc = s.pc := rfl
@[simp] theorem State.setIr_sp (val : Word) : (s.setIr val).sp = s.sp := rfl
@[simp] theorem State.setIr_stack (val : Word) : (s.setIr val).stack = s.stack := rfl
@[simp] theorem State.setIr_dt (val : Word) : (s.setIr val).dt = s.dt := rfl
@[simp] theorem State.setIr_st (val : Word) : (s.setIr val).st = s.st := rfl
@[simp] theorem State.setIr_fb (val : Word) : (s.setIr val).fb = s.fb := rfl
@[simp] theorem State.setIr_keys (val : Word) : (s.setIr val).keys = s.keys := rfl
@[simp] theorem State.setIr_ir (val : Word) : (s.setIr val).ir = val := rfl
@[simp] theorem State.setIr_status (val : Word) : (s.setIr val).status = s.status := rfl
@[simp] theorem State.setIr_mem (val : Word) : (s.setIr val).mem = s.mem := rfl
@[simp] theorem State.setIr_draws (val : Word) : (s.setIr val).draws = s.draws := rfl
@[simp] theorem State.setIr_reg (val : Word) (j : Nibble) : (s.setIr val).reg j = s.reg j := rfl

/-! ### setStatus -/

@[simp] theorem State.setStatus_v (val : Status) : (s.setStatus val).v = s.v := rfl
@[simp] theorem State.setStatus_i (val : Status) : (s.setStatus val).i = s.i := rfl
@[simp] theorem State.setStatus_pc (val : Status) : (s.setStatus val).pc = s.pc := rfl
@[simp] theorem State.setStatus_sp (val : Status) : (s.setStatus val).sp = s.sp := rfl
@[simp] theorem State.setStatus_stack (val : Status) : (s.setStatus val).stack = s.stack := rfl
@[simp] theorem State.setStatus_dt (val : Status) : (s.setStatus val).dt = s.dt := rfl
@[simp] theorem State.setStatus_st (val : Status) : (s.setStatus val).st = s.st := rfl
@[simp] theorem State.setStatus_fb (val : Status) : (s.setStatus val).fb = s.fb := rfl
@[simp] theorem State.setStatus_keys (val : Status) : (s.setStatus val).keys = s.keys := rfl
@[simp] theorem State.setStatus_ir (val : Status) : (s.setStatus val).ir = s.ir := rfl
@[simp] theorem State.setStatus_status (val : Status) : (s.setStatus val).status = val := rfl
@[simp] theorem State.setStatus_mem (val : Status) : (s.setStatus val).mem = s.mem := rfl
@[simp] theorem State.setStatus_draws (val : Status) : (s.setStatus val).draws = s.draws := rfl
@[simp] theorem State.setStatus_reg (val : Status) (j : Nibble) : (s.setStatus val).reg j = s.reg j := rfl

/-! ### setMem -/

@[simp] theorem State.setMem_v (val : Memory) : (s.setMem val).v = s.v := rfl
@[simp] theorem State.setMem_i (val : Memory) : (s.setMem val).i = s.i := rfl
@[simp] theorem State.setMem_pc (val : Memory) : (s.setMem val).pc = s.pc := rfl
@[simp] theorem State.setMem_sp (val : Memory) : (s.setMem val).sp = s.sp := rfl
@[simp] theorem State.setMem_stack (val : Memory) : (s.setMem val).stack = s.stack := rfl
@[simp] theorem State.setMem_dt (val : Memory) : (s.setMem val).dt = s.dt := rfl
@[simp] theorem State.setMem_st (val : Memory) : (s.setMem val).st = s.st := rfl
@[simp] theorem State.setMem_fb (val : Memory) : (s.setMem val).fb = s.fb := rfl
@[simp] theorem State.setMem_keys (val : Memory) : (s.setMem val).keys = s.keys := rfl
@[simp] theorem State.setMem_ir (val : Memory) : (s.setMem val).ir = s.ir := rfl
@[simp] theorem State.setMem_status (val : Memory) : (s.setMem val).status = s.status := rfl
@[simp] theorem State.setMem_mem (val : Memory) : (s.setMem val).mem = val := rfl
@[simp] theorem State.setMem_draws (val : Memory) : (s.setMem val).draws = s.draws := rfl
@[simp] theorem State.setMem_reg (val : Memory) (j : Nibble) : (s.setMem val).reg j = s.reg j := rfl

/-! ### drawn -/

@[simp] theorem State.drawn_v : s.drawn.v = s.v := rfl
@[simp] theorem State.drawn_i : s.drawn.i = s.i := rfl
@[simp] theorem State.drawn_pc : s.drawn.pc = s.pc := rfl
@[simp] theorem State.drawn_sp : s.drawn.sp = s.sp := rfl
@[simp] theorem State.drawn_stack : s.drawn.stack = s.stack := rfl
@[simp] theorem State.drawn_dt : s.drawn.dt = s.dt := rfl
@[simp] theorem State.drawn_st : s.drawn.st = s.st := rfl
@[simp] theorem State.drawn_fb : s.drawn.fb = s.fb := rfl
@[simp] theorem State.drawn_keys : s.drawn.keys = s.keys := rfl
@[simp] theorem State.drawn_ir : s.drawn.ir = s.ir := rfl
@[simp] theorem State.drawn_status : s.drawn.status = s.status := rfl
@[simp] theorem State.drawn_mem : s.drawn.mem = s.mem := rfl
@[simp] theorem State.drawn_draws : s.drawn.draws = s.draws + 1 := rfl
@[simp] theorem State.drawn_reg (j : Nibble) : s.drawn.reg j = s.reg j := rfl

/-! ### pushed -/

@[simp] theorem State.pushed_v (val : Word) (h : s.sp.toNat < 16) : (s.pushed val h).v = s.v := rfl
@[simp] theorem State.pushed_i (val : Word) (h : s.sp.toNat < 16) : (s.pushed val h).i = s.i := rfl
@[simp] theorem State.pushed_pc (val : Word) (h : s.sp.toNat < 16) : (s.pushed val h).pc = s.pc := rfl
@[simp] theorem State.pushed_sp (val : Word) (h : s.sp.toNat < 16) : (s.pushed val h).sp = s.sp + 1 := rfl
@[simp] theorem State.pushed_stack (val : Word) (h : s.sp.toNat < 16) : (s.pushed val h).stack = s.stack.set s.sp.toNat val := rfl
@[simp] theorem State.pushed_dt (val : Word) (h : s.sp.toNat < 16) : (s.pushed val h).dt = s.dt := rfl
@[simp] theorem State.pushed_st (val : Word) (h : s.sp.toNat < 16) : (s.pushed val h).st = s.st := rfl
@[simp] theorem State.pushed_fb (val : Word) (h : s.sp.toNat < 16) : (s.pushed val h).fb = s.fb := rfl
@[simp] theorem State.pushed_keys (val : Word) (h : s.sp.toNat < 16) : (s.pushed val h).keys = s.keys := rfl
@[simp] theorem State.pushed_ir (val : Word) (h : s.sp.toNat < 16) : (s.pushed val h).ir = s.ir := rfl
@[simp] theorem State.pushed_status (val : Word) (h : s.sp.toNat < 16) : (s.pushed val h).status = s.status := rfl
@[simp] theorem State.pushed_mem (val : Word) (h : s.sp.toNat < 16) : (s.pushed val h).mem = s.mem := rfl
@[simp] theorem State.pushed_draws (val : Word) (h : s.sp.toNat < 16) : (s.pushed val h).draws = s.draws := rfl
@[simp] theorem State.pushed_reg (val : Word) (h : s.sp.toNat < 16) (j : Nibble) : (s.pushed val h).reg j = s.reg j := rfl

/-! ### popped -/

@[simp] theorem State.popped_v : s.popped.v = s.v := rfl
@[simp] theorem State.popped_i : s.popped.i = s.i := rfl
@[simp] theorem State.popped_pc : s.popped.pc = s.pc := rfl
@[simp] theorem State.popped_sp : s.popped.sp = s.sp - 1 := rfl
@[simp] theorem State.popped_stack : s.popped.stack = s.stack := rfl
@[simp] theorem State.popped_dt : s.popped.dt = s.dt := rfl
@[simp] theorem State.popped_st : s.popped.st = s.st := rfl
@[simp] theorem State.popped_fb : s.popped.fb = s.fb := rfl
@[simp] theorem State.popped_keys : s.popped.keys = s.keys := rfl
@[simp] theorem State.popped_ir : s.popped.ir = s.ir := rfl
@[simp] theorem State.popped_status : s.popped.status = s.status := rfl
@[simp] theorem State.popped_mem : s.popped.mem = s.mem := rfl
@[simp] theorem State.popped_draws : s.popped.draws = s.draws := rfl
@[simp] theorem State.popped_reg (j : Nibble) : s.popped.reg j = s.reg j := rfl

/-! ### skipIf -/

@[simp] theorem State.skipIf_v (c : Bool) : (s.skipIf c).v = s.v := by cases c <;> rfl
@[simp] theorem State.skipIf_i (c : Bool) : (s.skipIf c).i = s.i := by cases c <;> rfl
@[simp] theorem State.skipIf_pc (c : Bool) : (s.skipIf c).pc = if c then s.pc + 4 else s.pc + 2 := by
  cases c <;> rfl
@[simp] theorem State.skipIf_sp (c : Bool) : (s.skipIf c).sp = s.sp := by cases c <;> rfl
@[simp] theorem State.skipIf_stack (c : Bool) : (s.skipIf c).stack = s.stack := by cases c <;> rfl
@[simp] theorem State.skipIf_dt (c : Bool) : (s.skipIf c).dt = s.dt := by cases c <;> rfl
@[simp] theorem State.skipIf_st (c : Bool) : (s.skipIf c).st = s.st := by cases c <;> rfl
@[simp] theorem State.skipIf_fb (c : Bool) : (s.skipIf c).fb = s.fb := by cases c <;> rfl
@[simp] theorem State.skipIf_keys (c : Bool) : (s.skipIf c).keys = s.keys := by cases c <;> rfl
@[simp] theorem State.skipIf_ir (c : Bool) : (s.skipIf c).ir = s.ir := by cases c <;> rfl
@[simp] theorem State.skipIf_status (c : Bool) : (s.skipIf c).status = s.status := by cases c <;> rfl
@[simp] theorem State.skipIf_mem (c : Bool) : (s.skipIf c).mem = s.mem := by cases c <;> rfl
@[simp] theorem State.skipIf_draws (c : Bool) : (s.skipIf c).draws = s.draws := by cases c <;> rfl
@[simp] theorem State.skipIf_reg (c : Bool) (j : Nibble) : (s.skipIf c).reg j = s.reg j := by cases c <;> rfl

/-! ### Registers after an update -/

/-- A register write changes the written register and no other (R10: no register aliases another). -/
@[simp] theorem State.setReg_reg (x j : Nibble) (val : Byte) :
    (s.setReg x val).reg j = if j = x then val else s.reg j := by
  unfold State.setReg State.reg
  simp only [Vector.getElem_set]
  by_cases h : j = x
  · simp [h]
  · have : x.toNat ≠ j.toNat := fun e => h (BitVec.eq_of_toNat_eq e.symm)
    simp [h, this]

/-- `reg` after all registers are replaced. -/
@[simp] theorem State.setRegs_reg (val : Vector Byte 16) (j : Nibble) :
    (s.setRegs val).reg j = val[j.toNat] := rfl

end Sys2Proof.Machine
end

