-- ==== Sys2Proof/Laws/Ops.lean ====
section
/-! SUPPORT. For each shared operation of Machine/Ops.lean, Operands.lean, Flags.lean and Cycle.lean, what it can do. -/

namespace Sys2Proof.Machine

variable {s t : State}

/-! ### Checks and fatal errors -/

/-- Raising answers the state with only `STATUS` changed. -/
theorem raise_next {e : FatalError} (h : raise e s = .next t) : t = s.setStatus (.halted e) := by
  simpa [raise] using h.symm

/-- The bounds check in numbers (R37). -/
theorem accessFits_iff {len : Nat} : accessFits s len = true ↔ s.i.toNat + len ≤ 4096 :=
  decide_eq_true_iff (p := s.i.toNat + len ≤ memSize)

/-- A checked access either raises or goes on from the same state with the access inside memory. -/
theorem withAccess_next {len : Nat} {k : State → Out} (h : withAccess s len k = .next t) :
    (4096 < s.i.toNat + len ∧ t = s.setStatus (.halted .memoryOutOfBounds)) ∨
      (s.i.toNat + len ≤ 4096 ∧ k s = .next t) := by
  unfold withAccess at h
  split at h
  · exact .inr ⟨accessFits_iff.mp ‹_›, h⟩
  · rename_i hf
    exact .inl ⟨by rw [accessFits_iff] at hf; omega, raise_next h⟩

theorem withAccess_fits {len : Nat} {k : State → Out} (h : s.i.toNat + len ≤ 4096) : withAccess s len k = k s :=
  if_pos (accessFits_iff.mpr h)

theorem withAccess_raises {len : Nat} {k : State → Out} (h : 4096 < s.i.toNat + len) :
    withAccess s len k = raise .memoryOutOfBounds s :=
  if_neg (by rw [accessFits_iff]; omega)

/-- A push either raises on a full stack or goes on with the value in the next slot. -/
theorem pushThen_next {val : Word} {k : State → Out} (h : pushThen val s k = .next t) :
    (s.sp = 16 ∧ t = s.setStatus (.halted .stackOverflow)) ∨
      ∃ hsp : s.sp.toNat < 16, k (s.pushed val hsp) = .next t := by
  unfold pushThen at h
  split at h
  · exact .inl ⟨‹_›, raise_next h⟩
  · split at h
    · exact .inr ⟨‹_›, h⟩
    · cases h

theorem pushThen_fits {val : Word} {k : State → Out} (h : s.sp.toNat < 16) :
    pushThen val s k = k (s.pushed val h) := by
  have hne : s.sp ≠ 16 := fun e => by simp [e] at h
  unfold pushThen
  rw [if_neg hne, dif_pos h]

/-- A pop either raises on an empty stack or goes on with the newest entry. -/
theorem popThen_next {k : Word → State → Out} (h : popThen s k = .next t) :
    (s.sp = 0 ∧ t = s.setStatus (.halted .stackUnderflow)) ∨
      (s.sp ≠ 0 ∧ ∃ hsp : s.sp.toNat - 1 < 16, k s.stack[s.sp.toNat - 1] s.popped = .next t) := by
  unfold popThen at h
  split at h
  · exact .inl ⟨‹_›, raise_next h⟩
  · split at h
    · exact .inr ⟨‹_›, ‹_›, h⟩
    · cases h

theorem popThen_fits {k : Word → State → Out} (h0 : s.sp ≠ 0) (h : s.sp.toNat - 1 < 16) :
    popThen s k = k s.stack[s.sp.toNat - 1] s.popped := by
  unfold popThen
  rw [if_neg h0, dif_pos h]

/-- A checked key number either raises or is below 16. -/
theorem withKey_next {x : Nibble} {k : Nat → Out} (h : withKey s x k = .next t) :
    (16 ≤ (s.reg x).toNat ∧ t = s.setStatus (.halted .keyIndexOutOfRange)) ∨
      ((s.reg x).toNat < 16 ∧ k (s.reg x).toNat = .next t) := by
  unfold withKey at h
  split at h
  · exact .inr ⟨‹_›, h⟩
  · exact .inl ⟨Nat.le_of_not_lt ‹_›, raise_next h⟩

/-! ### Operands -/

@[simp] theorem addrOperand_toNat (nnn : Addr) : (addrOperand nnn).toNat = nnn.toNat := by
  simp [addrOperand, BitVec.toNat_setWidth]
  omega

@[simp] theorem regOperand16_toNat (x : Nibble) : (regOperand16 s x).toNat = (s.reg x).toNat := by
  simp [regOperand16, BitVec.toNat_setWidth]
  omega

/-- The latch of a key number below 16. -/
theorem keyLatched_of_lt {k : Nat} (h : k < 16) : keyLatched s k = s.keys[k] := by
  simp [keyLatched, List.getD, h]

/-- Byte `j` of a bulk store is `V[j]`. -/
theorem bulkBytes_getElem (x j : Nibble) (h : j.toNat < (bulkBytes s x).length) :
    (bulkBytes s x)[j.toNat] = s.reg j := by
  simp [bulkBytes, State.reg]

@[simp] theorem bulkBytes_length (x : Nibble) : (bulkBytes s x).length = x.toNat + 1 := by
  simp [bulkBytes, bulkCount]
  omega

/-! ### Flags -/

theorem flagOf_eq (c : Bool) : flagOf c = if c then 1 else 0 := rfl

/-- With the spec's order the flag wins in `VF` and the result stands in every other destination (R91). -/
@[simp] theorem writeResultFlag_reg (x j : Nibble) (r f : Byte) :
    (writeResultFlag .flagLast x r f s).reg j = if j = 0xF then f else if j = x then r else s.reg j := by
  simp [writeResultFlag, vf]

/-- With the other order the result wins. -/
@[simp] theorem writeResultFlag_resultLast_reg (x j : Nibble) (r f : Byte) :
    (writeResultFlag .resultLast x r f s).reg j = if j = x then r else if j = 0xF then f else s.reg j := by
  simp [writeResultFlag, vf]

/-- The two writes touch the registers alone, so every other field reads as before. -/
theorem writeResultFlag_eq_setRegs (o : VfOrder) (x : Nibble) (r f : Byte) :
    ∃ v, writeResultFlag o x r f s = s.setRegs v := by
  cases o <;> exact ⟨_, rfl⟩

section WriteResultFlag
variable (o : VfOrder) (x : Nibble) (r f : Byte) (s : State)
@[simp] theorem writeResultFlag_i : (writeResultFlag o x r f s).i = s.i := by cases o <;> rfl
@[simp] theorem writeResultFlag_pc : (writeResultFlag o x r f s).pc = s.pc := by cases o <;> rfl
@[simp] theorem writeResultFlag_sp : (writeResultFlag o x r f s).sp = s.sp := by cases o <;> rfl
@[simp] theorem writeResultFlag_stack : (writeResultFlag o x r f s).stack = s.stack := by cases o <;> rfl
@[simp] theorem writeResultFlag_dt : (writeResultFlag o x r f s).dt = s.dt := by cases o <;> rfl
@[simp] theorem writeResultFlag_st : (writeResultFlag o x r f s).st = s.st := by cases o <;> rfl
@[simp] theorem writeResultFlag_fb : (writeResultFlag o x r f s).fb = s.fb := by cases o <;> rfl
@[simp] theorem writeResultFlag_keys : (writeResultFlag o x r f s).keys = s.keys := by cases o <;> rfl
@[simp] theorem writeResultFlag_ir : (writeResultFlag o x r f s).ir = s.ir := by cases o <;> rfl
@[simp] theorem writeResultFlag_status : (writeResultFlag o x r f s).status = s.status := by cases o <;> rfl
@[simp] theorem writeResultFlag_mem : (writeResultFlag o x r f s).mem = s.mem := by cases o <;> rfl
@[simp] theorem writeResultFlag_draws : (writeResultFlag o x r f s).draws = s.draws := by cases o <;> rfl
end WriteResultFlag

/-! ### Framebuffer -/

/-- Toggling flips one pixel and no other. -/
theorem Framebuffer.pixel_toggle (fb : Framebuffer) (px qx : Fin 64) (py qy : Fin 32) :
    Framebuffer.pixel (Framebuffer.toggle fb px py) qx qy =
      if qx = px ∧ qy = py then !(Framebuffer.pixel fb qx qy) else Framebuffer.pixel fb qx qy := by
  unfold Framebuffer.pixel Framebuffer.toggle
  by_cases hx : qx = px
  · subst hx
    by_cases hy : qy = py
    · simp [hy]
    · have : py.val ≠ qy.val := fun e => hy (Fin.ext e.symm)
      simp [hy, this]
  · have : px.val ≠ qx.val := fun e => hx (Fin.ext e.symm)
    simp [hx, this]

@[simp] theorem Framebuffer.pixel_blank (px : Fin 64) (py : Fin 32) :
    Framebuffer.pixel Framebuffer.blank px py = false := by
  simp [Framebuffer.pixel, Framebuffer.blank]

/-! ### Bulk load -/

/-- Register `m` after a bulk load from register `j` on. -/
theorem loadRegs_getElem (bs : List Byte) (j : Nat) (v : Vector Byte 16) (m : Nat) (hm : m < 16) :
    (loadRegs bs j v)[m] = if h : j ≤ m ∧ m < j + bs.length then bs[m - j]'(by omega) else v[m] := by
  induction bs generalizing j v with
  | nil =>
    rw [loadRegs, dif_neg (by simp)]
  | cons b bs ih =>
    rw [loadRegs, ih]
    by_cases h1 : j + 1 ≤ m ∧ m < j + 1 + bs.length
    · have h2 : j ≤ m ∧ m < j + (bs.length + 1) := by omega
      obtain ⟨k, hk⟩ : ∃ k, m - j = k + 1 := ⟨m - j - 1, by omega⟩
      have hk' : m - (j + 1) = k := by omega
      simp [h1, h2, hk, hk']
    · by_cases h3 : j = m
      · subst h3
        simp
      · have h2 : ¬ (j ≤ m ∧ m < j + (bs.length + 1)) := by omega
        rw [dif_neg h1, dif_neg (by simpa using h2), Vector.getElem_setIfInBounds_ne (h := h3)]

/-! ### Fetch and keys -/

/-- Inside memory fetch gives the big-endian word (R61). -/
theorem fetch_of_lt (h : s.pc.toNat + 1 < 4096) :
    fetch s = some (wordOfBytes (s.mem.read s.pc.toNat) (s.mem.read (s.pc.toNat + 1))) := by
  unfold fetch
  rw [if_neg (show ¬ s.pc.toNat + 1 ≥ memSize by simp only [memSize]; omega)]

/-- Past the end of memory fetch gives nothing (R38). -/
theorem fetch_of_ge (h : 4096 ≤ s.pc.toNat + 1) : fetch s = none := by
  unfold fetch
  rw [if_pos (show s.pc.toNat + 1 ≥ memSize from h)]

/-- Placing a word writes its two bytes at `PC`. -/
theorem placeWord_of_lt (w : Word) (h : s.pc.toNat + 1 < 4096) :
    placeWord s w = s.setMem (s.mem.writeBytes s.pc.toNat [highByte w, lowByte w]) := by
  unfold placeWord
  rw [if_neg (show ¬ s.pc.toNat + 1 ≥ memSize by simp only [memSize]; omega)]

/-- The least latched key, if that is what `k` is (R107). -/
theorem lowestKey_eq_some (k : Fin 16) (hk : s.keys[k] = true) (hlow : ∀ j : Fin 16, j < k → s.keys[j] = false) :
    lowestKey s = some k.val := by
  unfold lowestKey
  rw [List.findIdx?_eq_some_iff_getElem]
  refine ⟨by simp, by simpa using hk, fun j hj => ?_⟩
  simpa using hlow ⟨j, by omega⟩ hj

/-- With no key latched there is no least one (R107). -/
theorem lowestKey_eq_none (h : ∀ k : Fin 16, s.keys[k] = false) : lowestKey s = none := by
  unfold lowestKey
  rw [List.findIdx?_eq_none_iff]
  intro b hb
  obtain ⟨n, hn, rfl⟩ := List.getElem_of_mem hb
  simpa using h ⟨n, by simpa using hn⟩

/-- A key number inside 0..15 passes the check of SKP and SKNP. -/
theorem withKey_of_lt {x : Nibble} {k : Nat → Out} (h : (s.reg x).toNat < 16) : withKey s x k = k (s.reg x).toNat :=
  if_pos h

/-- A key number of 16 or more raises (R105, R106). -/
theorem withKey_of_ge {x : Nibble} {k : Nat → Out} (h : 16 ≤ (s.reg x).toNat) :
    withKey s x k = raise .keyIndexOutOfRange s :=
  if_neg (show ¬ (s.reg x).toNat < keyCount by simp only [keyCount]; omega)

/-! ### Flags in numbers -/

/-- A flag is 0 or 1. -/
theorem flagOf_toNat (c : Bool) : (flagOf c).toNat = if c then 1 else 0 := by cases c <;> rfl

/-- The bit SHR shifts out is the remainder modulo 2 (R88). -/
theorem shrFlag_toNat (b : Byte) : (shrFlag b).toNat = b.toNat % 2 := by
  simp only [shrFlag, flagOf_toNat, BitVec.getLsbD, Nat.testBit_zero, decide_eq_true_eq]
  split <;> omega

/-- The bit SHL shifts out is the quotient by 128 (R90). -/
theorem shlFlag_toNat (b : Byte) : (shlFlag b).toNat = b.toNat / 128 := by
  have := b.isLt
  simp only [shlFlag, flagOf_toNat, BitVec.getLsbD, Nat.testBit_eq_decide_div_mod_eq, decide_eq_true_eq]
  split <;> omega

/-! ### The phases around execute -/

/-- After execute either the error stands with nothing else written, or phases K and T follow. -/
theorem completeStep_next {o : Out} (h : completeStep o = .next t) :
    ∃ u, o = .next u ∧ ((u.status = .running ∧ t = endOfStep u) ∨ ((∃ e, u.status = .halted e) ∧ t = u)) := by
  cases o with
  | next u =>
    refine ⟨u, rfl, ?_⟩
    cases hs : u.status with
    | running => exact .inl ⟨rfl, by simpa [completeStep, hs] using h.symm⟩
    | halted e => exact .inr ⟨⟨e, rfl⟩, by simpa [completeStep, hs] using h.symm⟩
  | fault r => cases h
  | refused r => cases h

/-- A completed operation is followed by phases K and T (R60). -/
theorem completeStep_running (h : s.status = .running) : completeStep (.next s) = .next (endOfStep s) := by
  simp [completeStep, h]

/-- A step that raised an error is over (R65). -/
theorem completeStep_halted {e : FatalError} (h : s.status = .halted e) : completeStep (.next s) = .next s := by
  simp [completeStep, h]

/-- A timer's countdown is subtraction that stops at 0 (R103). -/
@[simp] theorem countDown_toNat (b : Byte) : (countDown b).toNat = b.toNat - 1 := by
  unfold countDown
  split
  · rename_i h
    simp [h]
  · rename_i h
    have : b.toNat ≠ 0 := fun e => h (BitVec.eq_of_toNat_eq (by simpa using e))
    rw [BitVec.toNat_sub]
    have := b.isLt
    simp
    omega

section EndOfStep
variable (s : State)
@[simp] theorem endOfStep_v : (endOfStep s).v = s.v := rfl
@[simp] theorem endOfStep_reg (j : Nibble) : (endOfStep s).reg j = s.reg j := rfl
@[simp] theorem endOfStep_i : (endOfStep s).i = s.i := rfl
@[simp] theorem endOfStep_pc : (endOfStep s).pc = s.pc := rfl
@[simp] theorem endOfStep_sp : (endOfStep s).sp = s.sp := rfl
@[simp] theorem endOfStep_stack : (endOfStep s).stack = s.stack := rfl
@[simp] theorem endOfStep_dt : (endOfStep s).dt = countDown s.dt := rfl
@[simp] theorem endOfStep_st : (endOfStep s).st = countDown s.st := rfl
@[simp] theorem endOfStep_fb : (endOfStep s).fb = s.fb := rfl
@[simp] theorem endOfStep_keys : (endOfStep s).keys = Vector.replicate 16 false := rfl
@[simp] theorem endOfStep_ir : (endOfStep s).ir = s.ir := rfl
@[simp] theorem endOfStep_status : (endOfStep s).status = s.status := rfl
@[simp] theorem endOfStep_mem : (endOfStep s).mem = s.mem := rfl
@[simp] theorem endOfStep_draws : (endOfStep s).draws = s.draws := rfl
end EndOfStep

end Sys2Proof.Machine
end

