-- ==== Sys2Proof/Laws/Display.lean ====
section
/-! SUPPORT. What drawing a sprite does: which pixels it toggles and when it reports a collision. `drawRows_spec` says
it once for any list of at most 15 rows; no pixel is reached twice, because 8 < 64 columns and 15 < 32 rows. -/

namespace Sys2Proof.Machine

/-- One of the first `m` bits of a sprite row drawn at column `x0` and row `y` is 1 and reaches the pixel. -/
def RowReaches (b : Byte) (x0 y m : Nat) (px : Fin 64) (py : Fin 32) : Prop :=
  ∃ c, c < m ∧ b.getLsbD (7 - c) = true ∧ px.val = (x0 + c) % 64 ∧ py.val = y % 32

/-- A 1 bit of some row of a sprite drawn at column `x0` and row `y` reaches the pixel. -/
def RowsReach (bs : List Byte) (x0 y : Nat) (px : Fin 64) (py : Fin 32) : Prop :=
  ∃ r, ∃ h : r < bs.length, RowReaches bs[r] x0 (y + r) 8 px py

/-- One more bit of a row reaches one more pixel. -/
theorem rowReaches_succ (b : Byte) (x0 y m : Nat) (px : Fin 64) (py : Fin 32) :
    RowReaches b x0 y (m + 1) px py ↔
      RowReaches b x0 y m px py ∨ (b.getLsbD (7 - m) = true ∧ px.val = (x0 + m) % 64 ∧ py.val = y % 32) := by
  constructor
  · rintro ⟨c, hc, h⟩
    rcases Nat.lt_succ_iff_lt_or_eq.mp hc with h1 | rfl
    · exact .inl ⟨c, h1, h⟩
    · exact .inr h
  · rintro (⟨c, hc, h⟩ | h)
    · exact ⟨c, by omega, h⟩
    · exact ⟨m, by omega, h⟩

/-- The first row, or one of the others a row further down. -/
theorem rowsReach_cons (b : Byte) (bs : List Byte) (x0 y : Nat) (px : Fin 64) (py : Fin 32) :
    RowsReach (b :: bs) x0 y px py ↔ RowReaches b x0 y 8 px py ∨ RowsReach bs x0 (y + 1) px py := by
  constructor
  · rintro ⟨r, hr, h⟩
    cases r with
    | zero => exact .inl h
    | succ r => exact .inr ⟨r, by simpa using hr, by simpa [Nat.add_assoc, Nat.add_comm 1] using h⟩
  · rintro (h | ⟨r, hr, h⟩)
    · exact ⟨0, by simp, h⟩
    · exact ⟨r + 1, by simpa using hr, by simpa [Nat.add_assoc, Nat.add_comm 1] using h⟩

/-- The pixel a column and a row number name after the reduction of both. -/
theorem eq_ofNat_iff (a b : Nat) (px : Fin 64) (py : Fin 32) :
    (px = Fin.ofNat 64 a ∧ py = Fin.ofNat 32 b) ↔ (px.val = a % 64 ∧ py.val = b % 32) := by
  simp only [Fin.ext_iff, Fin.ofNat]

/-- One sprite bit toggles its own pixel if it is 1. -/
theorem pixel_drawBit (acc : Framebuffer × Bool) (qx px : Fin 64) (qy py : Fin 32) (bit : Bool) :
    Framebuffer.pixel (drawBit acc qx qy bit).1 px py =
      if bit = true ∧ px = qx ∧ py = qy then !(Framebuffer.pixel acc.1 px py) else Framebuffer.pixel acc.1 px py := by
  unfold drawBit
  cases bit
  · simp
  · simp only [if_true, Framebuffer.pixel_toggle, true_and]

/-- One sprite bit adds a collision if it is 1 and its pixel was on. -/
theorem collision_drawBit (acc : Framebuffer × Bool) (qx : Fin 64) (qy : Fin 32) (bit : Bool) :
    (drawBit acc qx qy bit).2 = (acc.2 || (bit && Framebuffer.pixel acc.1 qx qy)) := by
  unfold drawBit
  cases bit <;> simp

/-- The first `m` bits of a sprite row: the pixels they toggle, and the collision mark. -/
theorem drawRow_fold (b : Byte) (x0 y m : Nat) (hm : m ≤ 8) (acc : Framebuffer × Bool) :
    (∀ px py, Framebuffer.pixel ((List.range m).foldl
        (fun a c => drawBit a (Fin.ofNat 64 (x0 + c)) (Fin.ofNat 32 y) (b.getLsbD (7 - c))) acc).1 px py ≠
        Framebuffer.pixel acc.1 px py ↔ RowReaches b x0 y m px py) ∧
    (((List.range m).foldl
        (fun a c => drawBit a (Fin.ofNat 64 (x0 + c)) (Fin.ofNat 32 y) (b.getLsbD (7 - c))) acc).2 = true ↔
      acc.2 = true ∨ ∃ px py, RowReaches b x0 y m px py ∧ Framebuffer.pixel acc.1 px py = true) := by
  induction m with
  | zero => simp [RowReaches]
  | succ m ih =>
    obtain ⟨ih1, ih2⟩ := ih (by omega)
    rw [List.range_succ, List.foldl_append]
    simp only [List.foldl_cons, List.foldl_nil]
    generalize (List.range m).foldl _ acc = a at ih1 ih2 ⊢
    have hnew : ∀ px : Fin 64, ∀ py, RowReaches b x0 y m px py → px.val ≠ (x0 + m) % 64 := by
      rintro px py ⟨c, hc, _, hp, _⟩
      omega
    have hsame : ∀ px : Fin 64, ∀ py, px.val = (x0 + m) % 64 →
        Framebuffer.pixel a.1 px py = Framebuffer.pixel acc.1 px py := by
      intro px py hp
      by_contra hc
      exact hnew px py ((ih1 px py).mp hc) hp
    refine ⟨fun px py => ?_, ?_⟩
    · rw [pixel_drawBit, rowReaches_succ, ← eq_ofNat_iff]
      split
      · rename_i h
        rw [hsame px py ((eq_ofNat_iff _ _ px py).mp h.2).1]
        exact ⟨fun _ => .inr h, fun _ => by simp⟩
      · rename_i h
        exact ⟨fun hp => .inl ((ih1 px py).mp hp), fun hr => (ih1 px py).mpr (hr.resolve_right h)⟩
    · have hq := (eq_ofNat_iff (x0 + m) y (Fin.ofNat 64 (x0 + m)) (Fin.ofNat 32 y)).mp ⟨rfl, rfl⟩
      rw [collision_drawBit, hsame _ _ hq.1, Bool.or_eq_true, Bool.and_eq_true, ih2]
      constructor
      · rintro ((h | ⟨px, py, h, hp⟩) | ⟨hb, hp⟩)
        · exact .inl h
        · exact .inr ⟨px, py, (rowReaches_succ ..).mpr (.inl h), hp⟩
        · exact .inr ⟨_, _, (rowReaches_succ ..).mpr (.inr ⟨hb, hq⟩), hp⟩
      · rintro (h | ⟨px, py, h, hp⟩)
        · exact .inl (.inl h)
        · rcases (rowReaches_succ ..).mp h with h | ⟨hb, h⟩
          · exact .inl (.inr ⟨px, py, h, hp⟩)
          · obtain ⟨rfl, rfl⟩ := (eq_ofNat_iff _ _ px py).mpr h
            exact .inr ⟨hb, hp⟩

/-- One sprite row: the pixels it toggles, and the collision mark. -/
theorem drawRow_spec (b : Byte) (x0 y : Nat) (acc : Framebuffer × Bool) :
    (∀ px py, Framebuffer.pixel (drawRow b x0 y acc).1 px py ≠ Framebuffer.pixel acc.1 px py ↔
      RowReaches b x0 y 8 px py) ∧
    ((drawRow b x0 y acc).2 = true ↔
      acc.2 = true ∨ ∃ px py, RowReaches b x0 y 8 px py ∧ Framebuffer.pixel acc.1 px py = true) :=
  drawRow_fold b x0 y 8 (Nat.le_refl 8) acc

/-- The rows of a sprite of any legal height: the pixels they toggle, and the collision mark. -/
theorem drawRows_spec (bs : List Byte) (x0 y : Nat) (hl : bs.length ≤ 15) (acc : Framebuffer × Bool) :
    (∀ px py, Framebuffer.pixel (drawRows bs x0 y acc).1 px py ≠ Framebuffer.pixel acc.1 px py ↔
      RowsReach bs x0 y px py) ∧
    ((drawRows bs x0 y acc).2 = true ↔
      acc.2 = true ∨ ∃ px py, RowsReach bs x0 y px py ∧ Framebuffer.pixel acc.1 px py = true) := by
  induction bs generalizing y acc with
  | nil => simp [RowsReach, drawRows]
  | cons b bs ih =>
    simp only [List.length_cons] at hl
    have hdisj : ∀ px py, RowReaches b x0 y 8 px py → ¬ RowsReach bs x0 (y + 1) px py := by
      rintro px py ⟨c, _, _, _, h1⟩ ⟨r, hr, c', _, _, _, h2⟩
      omega
    obtain ⟨i1, i2⟩ := ih (y + 1) (by omega) (drawRow b x0 y acc)
    obtain ⟨r1, r2⟩ := drawRow_spec b x0 y acc
    have hsame : ∀ px py, ¬ RowReaches b x0 y 8 px py →
        Framebuffer.pixel (drawRow b x0 y acc).1 px py = Framebuffer.pixel acc.1 px py := by
      intro px py h
      by_contra hc
      exact h ((r1 px py).mp hc)
    simp only [drawRows]
    refine ⟨fun px py => ?_, ?_⟩
    · rw [rowsReach_cons]
      by_cases h1 : RowReaches b x0 y 8 px py
      · have e : Framebuffer.pixel (drawRows bs x0 (y + 1) (drawRow b x0 y acc)).1 px py =
            Framebuffer.pixel (drawRow b x0 y acc).1 px py := by
          by_contra hc
          exact hdisj _ _ h1 ((i1 _ _).mp hc)
        rw [e]
        exact ⟨fun _ => .inl h1, fun _ => (r1 _ _).mpr h1⟩
      · rw [← hsame _ _ h1, i1]
        exact ⟨.inr, fun h => h.resolve_left h1⟩
    · rw [i2, r2]
      constructor
      · rintro ((h | ⟨px, py, h, hp⟩) | ⟨px, py, h, hp⟩)
        · exact .inl h
        · exact .inr ⟨px, py, (rowsReach_cons ..).mpr (.inl h), hp⟩
        · exact .inr ⟨px, py, (rowsReach_cons ..).mpr (.inr h), hsame _ _ (fun h1 => hdisj _ _ h1 h) ▸ hp⟩
      · rintro (h | ⟨px, py, h, hp⟩)
        · exact .inl (.inl h)
        · rcases (rowsReach_cons ..).mp h with h | h
          · exact .inl (.inr ⟨px, py, h, hp⟩)
          · exact .inr ⟨px, py, h, (hsame _ _ (fun h1 => hdisj _ _ h1 h)).symm ▸ hp⟩

end Sys2Proof.Machine
end

