-- ==== Sys2Proof/Laws/Exec.lean ====
section
/-! SUPPORT. What executing an instruction can do, said once: it raises the fatal error of its one check, or it has the
effect its rule gives. Proofs over all instructions cite `exec_next` and split `Effect`. -/

namespace Sys2Proof.Machine

/-- A raise is a halt with nothing else written (R65). -/
theorem haltsWith_raise (s : State) (e : FatalError) : HaltsWith (raise e s) s e := by
  refine ⟨_, rfl, rfl, fun p hp => ?_⟩
  cases p <;> simp_all [SamePart]

/-- The effect of each instruction that does not raise a fatal error, as one state update. -/
def Effect (s t : State) : Instr → Prop
  | .cls _ => t = (s.setFb Framebuffer.blank).advance
  | .ret _ => s.sp ≠ 0 ∧ ∃ h : s.sp.toNat - 1 < 16, t = s.popped.setPc (s.stack[s.sp.toNat - 1] + params.retAdjust)
  | .jp nnn => t = s.setPc (addrOperand nnn)
  | .call nnn => ∃ h : s.sp.toNat < 16, t = (s.pushed s.pc h).setPc (addrOperand nnn)
  | .seImm x kk => t = s.skipIf (s.reg x == kk)
  | .sneImm x kk => t = s.skipIf (s.reg x != kk)
  | .seReg x y _ => t = s.skipIf (s.reg x == s.reg y)
  | .ldImm x kk => t = (s.setReg x kk).advance
  | .addImm x kk => t = (s.setReg x (s.reg x + kk)).advance
  | .ldReg x y => t = (s.setReg x (s.reg y)).advance
  | .orReg x y => t = (s.setReg x (s.reg x ||| s.reg y)).advance
  | .andReg x y => t = (s.setReg x (s.reg x &&& s.reg y)).advance
  | .xorReg x y => t = (s.setReg x (s.reg x ^^^ s.reg y)).advance
  | .addReg x y =>
    t = (writeResultFlag params.vfOrder x (s.reg x + s.reg y) (carryFlag (s.reg x) (s.reg y)) s).advance
  | .sub x y =>
    t = (writeResultFlag params.vfOrder x (s.reg x - s.reg y) (noBorrowFlag (s.reg x) (s.reg y)) s).advance
  | .shr x _ => t = (writeResultFlag params.vfOrder x (s.reg x >>> 1) (shrFlag (s.reg x)) s).advance
  | .subn x y =>
    t = (writeResultFlag params.vfOrder x (s.reg y - s.reg x) (noBorrowFlag (s.reg y) (s.reg x)) s).advance
  | .shl x _ => t = (writeResultFlag params.vfOrder x (s.reg x <<< 1) (shlFlag (s.reg x)) s).advance
  | .sneReg x y _ => t = s.skipIf (s.reg x != s.reg y)
  | .ldI nnn => t = (s.setI (addrOperand nnn)).advance
  | .jpV0 nnn => t = s.setPc (offsetTarget s nnn)
  | .rnd x kk => t = (s.drawn.setReg x (rndResult (rndInput s) kk)).advance
  | .drw x y n =>
    t = ((s.setFb (drawSprite x y n s).1).setReg vf (collisionFlag (drawSprite x y n s).2)).advance
  | .skp x => t = s.skipIf (keyLatched s (s.reg x).toNat)
  | .sknp x => t = s.skipIf (!keyLatched s (s.reg x).toNat)
  | .ldVxDt x => t = (s.setReg x s.dt).advance
  | .ldVxK x => (∃ k, lowestKey s = some k ∧ t = (s.setReg x (BitVec.ofNat 8 k)).advance) ∨ (lowestKey s = none ∧ t = s)
  | .ldDtVx x => t = (s.setDt (s.reg x)).advance
  | .ldStVx x => t = (s.setSt (s.reg x)).advance
  | .addI x => t = (s.setI (s.i + regOperand16 s x)).advance
  | .ldF x => t = (s.setI (glyphAddress s x)).advance
  | .ldB x => t = (s.setMem (s.mem.writeBytes (baseAddress s) (bcdDigits (s.reg x)))).advance
  | .ldMemVx x => t = (s.setMem (s.mem.writeBytes (baseAddress s) (bulkBytes s x))).advance
  | .ldVxMem x => t = (s.setRegs (loadRegs (s.mem.readBytes (baseAddress s) (bulkCount x)) 0 s.v)).advance

/-- A next state of an instruction comes from its one check, or from its effect. -/
theorem exec_next {i : Instr} {s t : State} (h : exec i s = .next t) :
    (∃ e, fatalOf i s = some e ∧ t = s.setStatus (.halted e)) ∨ (fatalOf i s = none ∧ Effect s t i) := by
  cases i with
  | call nnn =>
    simp only [exec, execCall] at h
    rcases pushThen_next h with ⟨hsp, ht⟩ | ⟨hsp, ht⟩
    · exact .inl ⟨_, by simp [fatalOf, hsp], ht⟩
    · exact .inr ⟨by simp only [fatalOf]; rw [if_neg (by omega)], hsp, (Host.Outcome.next.inj ht).symm⟩
  | ret z =>
    simp only [exec, execRet] at h
    rcases popThen_next h with ⟨hsp, ht⟩ | ⟨h0, hsp, ht⟩
    · exact .inl ⟨_, by simp [fatalOf, hsp], ht⟩
    · have h0' : ¬ s.sp.toNat = 0 := fun e => h0 (BitVec.eq_of_toNat_eq (by simpa using e))
      exact .inr ⟨if_neg h0', h0, hsp, (Host.Outcome.next.inj ht).symm⟩
  | ldB x =>
    simp only [exec, execLdB] at h
    rcases withAccess_next h with ⟨hb, ht⟩ | ⟨hb, ht⟩
    · exact .inl ⟨_, if_pos hb, ht⟩
    · exact .inr ⟨if_neg (by omega), (Host.Outcome.next.inj ht).symm⟩
  | ldMemVx x =>
    simp only [exec, execLdMemVx] at h
    rcases withAccess_next h with ⟨hb, ht⟩ | ⟨hb, ht⟩
    · exact .inl ⟨_, if_pos hb, ht⟩
    · exact .inr ⟨if_neg (by unfold bulkCount at hb; omega), (Host.Outcome.next.inj ht).symm⟩
  | ldVxMem x =>
    simp only [exec, execLdVxMem] at h
    rcases withAccess_next h with ⟨hb, ht⟩ | ⟨hb, ht⟩
    · exact .inl ⟨_, if_pos hb, ht⟩
    · exact .inr ⟨if_neg (by unfold bulkCount at hb; omega), (Host.Outcome.next.inj ht).symm⟩
  | drw x y n =>
    simp only [exec, execDrw] at h
    rcases withAccess_next h with ⟨hb, ht⟩ | ⟨hb, ht⟩
    · exact .inl ⟨_, if_pos hb, ht⟩
    · exact .inr ⟨if_neg (by omega), (Host.Outcome.next.inj ht).symm⟩
  | skp x =>
    simp only [exec, execSkp] at h
    rcases withKey_next h with ⟨hk, ht⟩ | ⟨hk, ht⟩
    · exact .inl ⟨_, if_pos hk, ht⟩
    · exact .inr ⟨if_neg (by omega), (Host.Outcome.next.inj ht).symm⟩
  | sknp x =>
    simp only [exec, execSknp] at h
    rcases withKey_next h with ⟨hk, ht⟩ | ⟨hk, ht⟩
    · exact .inl ⟨_, if_pos hk, ht⟩
    · exact .inr ⟨if_neg (by omega), (Host.Outcome.next.inj ht).symm⟩
  | ldVxK x =>
    refine .inr ⟨rfl, ?_⟩
    simp only [exec, execLdVxK] at h
    split at h
    · exact .inl ⟨_, ‹_›, (Host.Outcome.next.inj h).symm⟩
    · exact .inr ⟨‹_›, (Host.Outcome.next.inj h).symm⟩
  | cls _ => exact .inr ⟨rfl, (Host.Outcome.next.inj h).symm⟩
  | jp _ => exact .inr ⟨rfl, (Host.Outcome.next.inj h).symm⟩
  | seImm _ _ => exact .inr ⟨rfl, (Host.Outcome.next.inj h).symm⟩
  | sneImm _ _ => exact .inr ⟨rfl, (Host.Outcome.next.inj h).symm⟩
  | seReg _ _ _ => exact .inr ⟨rfl, (Host.Outcome.next.inj h).symm⟩
  | ldImm _ _ => exact .inr ⟨rfl, (Host.Outcome.next.inj h).symm⟩
  | addImm _ _ => exact .inr ⟨rfl, (Host.Outcome.next.inj h).symm⟩
  | ldReg _ _ => exact .inr ⟨rfl, (Host.Outcome.next.inj h).symm⟩
  | orReg _ _ => exact .inr ⟨rfl, (Host.Outcome.next.inj h).symm⟩
  | andReg _ _ => exact .inr ⟨rfl, (Host.Outcome.next.inj h).symm⟩
  | xorReg _ _ => exact .inr ⟨rfl, (Host.Outcome.next.inj h).symm⟩
  | addReg _ _ => exact .inr ⟨rfl, (Host.Outcome.next.inj h).symm⟩
  | sub _ _ => exact .inr ⟨rfl, (Host.Outcome.next.inj h).symm⟩
  | shr _ _ => exact .inr ⟨rfl, (Host.Outcome.next.inj h).symm⟩
  | subn _ _ => exact .inr ⟨rfl, (Host.Outcome.next.inj h).symm⟩
  | shl _ _ => exact .inr ⟨rfl, (Host.Outcome.next.inj h).symm⟩
  | sneReg _ _ _ => exact .inr ⟨rfl, (Host.Outcome.next.inj h).symm⟩
  | ldI _ => exact .inr ⟨rfl, (Host.Outcome.next.inj h).symm⟩
  | jpV0 _ => exact .inr ⟨rfl, (Host.Outcome.next.inj h).symm⟩
  | rnd _ _ => exact .inr ⟨rfl, (Host.Outcome.next.inj h).symm⟩
  | ldVxDt _ => exact .inr ⟨rfl, (Host.Outcome.next.inj h).symm⟩
  | ldDtVx _ => exact .inr ⟨rfl, (Host.Outcome.next.inj h).symm⟩
  | ldStVx _ => exact .inr ⟨rfl, (Host.Outcome.next.inj h).symm⟩
  | addI _ => exact .inr ⟨rfl, (Host.Outcome.next.inj h).symm⟩
  | ldF _ => exact .inr ⟨rfl, (Host.Outcome.next.inj h).symm⟩

/-- What one step can do: ignore the request, fail its fetch, pass over an unknown word, or execute the fetched
instruction, which raises its fatal error or has its effect and is followed by phases K and T. -/
theorem step_next {s t : State} (h : step s = .next t) :
    ((∃ e, s.status = .halted e) ∧ t = s) ∨
    (s.status = .running ∧ fetch s = none ∧ t = s.setStatus (.halted .programCounterOutOfBounds)) ∨
    (s.status = .running ∧ ∃ w, fetch s = some w ∧
      ((decodeWord w = none ∧ t = endOfStep (unknownOpcode (s.setIr w))) ∨
        ∃ i u, decodeWord w = some i ∧ exec i (s.setIr w) = .next u ∧
          ((u.status = .running ∧ t = endOfStep u) ∨ ((∃ e, u.status = .halted e) ∧ t = u)))) := by
  unfold step at h
  split at h
  · exact .inl ⟨⟨_, ‹_›⟩, (Host.Outcome.next.inj h).symm⟩
  · refine .inr ?_
    split at h
    · exact .inl ⟨‹_›, ‹_›, raise_next h⟩
    · refine .inr ⟨‹_›, _, ‹_›, ?_⟩
      split at h
      · exact .inl ⟨‹_›, (Host.Outcome.next.inj h).symm⟩
      · obtain ⟨u, hu, hc⟩ := completeStep_next h
        exact .inr ⟨_, u, ‹_›, hu, hc⟩

end Sys2Proof.Machine
end

