-- ==== Sys2Proof/Laws/PerInstr.lean ====
section
/-! SUPPORT. Statements about every instruction as syntax, one lemma per constructor. `TableRow`: the word the encoder
gives an instruction has, under the mask of its row in R52, the bits of that row's match. -/

namespace Sys2Proof

/-- The word lies in the instruction's own row of R52. -/
def Laws.TableRow.Statement (i : Instr) : Prop := encode i &&& rowMask i = rowMatch i

theorem Laws.TableRow.cls (z : Nibble) : Laws.TableRow.Statement (.cls z) := by
  simp [Laws.TableRow.Statement, encode, rowMask, rowMatch, and_F0FF]; decide

theorem Laws.TableRow.ret (z : Nibble) : Laws.TableRow.Statement (.ret z) := by
  simp [Laws.TableRow.Statement, encode, rowMask, rowMatch, and_F0FF]; decide

theorem Laws.TableRow.jp (nnn : Addr) : Laws.TableRow.Statement (.jp nnn) := by
  simp [Laws.TableRow.Statement, encode, rowMask, rowMatch, and_F000]; decide

theorem Laws.TableRow.call (nnn : Addr) : Laws.TableRow.Statement (.call nnn) := by
  simp [Laws.TableRow.Statement, encode, rowMask, rowMatch, and_F000]; decide

theorem Laws.TableRow.seImm (x : Nibble) (kk : Byte) : Laws.TableRow.Statement (.seImm x kk) := by
  simp [Laws.TableRow.Statement, encode, rowMask, rowMatch, and_F000]; decide

theorem Laws.TableRow.sneImm (x : Nibble) (kk : Byte) : Laws.TableRow.Statement (.sneImm x kk) := by
  simp [Laws.TableRow.Statement, encode, rowMask, rowMatch, and_F000]; decide

theorem Laws.TableRow.seReg (x y z : Nibble) : Laws.TableRow.Statement (.seReg x y z) := by
  simp [Laws.TableRow.Statement, encode, rowMask, rowMatch, and_F000]; decide

theorem Laws.TableRow.ldImm (x : Nibble) (kk : Byte) : Laws.TableRow.Statement (.ldImm x kk) := by
  simp [Laws.TableRow.Statement, encode, rowMask, rowMatch, and_F000]; decide

theorem Laws.TableRow.addImm (x : Nibble) (kk : Byte) : Laws.TableRow.Statement (.addImm x kk) := by
  simp [Laws.TableRow.Statement, encode, rowMask, rowMatch, and_F000]; decide

theorem Laws.TableRow.ldReg (x y : Nibble) : Laws.TableRow.Statement (.ldReg x y) := by
  simp [Laws.TableRow.Statement, encode, rowMask, rowMatch, and_F00F]; decide

theorem Laws.TableRow.orReg (x y : Nibble) : Laws.TableRow.Statement (.orReg x y) := by
  simp [Laws.TableRow.Statement, encode, rowMask, rowMatch, and_F00F]; decide

theorem Laws.TableRow.andReg (x y : Nibble) : Laws.TableRow.Statement (.andReg x y) := by
  simp [Laws.TableRow.Statement, encode, rowMask, rowMatch, and_F00F]; decide

theorem Laws.TableRow.xorReg (x y : Nibble) : Laws.TableRow.Statement (.xorReg x y) := by
  simp [Laws.TableRow.Statement, encode, rowMask, rowMatch, and_F00F]; decide

theorem Laws.TableRow.addReg (x y : Nibble) : Laws.TableRow.Statement (.addReg x y) := by
  simp [Laws.TableRow.Statement, encode, rowMask, rowMatch, and_F00F]; decide

theorem Laws.TableRow.sub (x y : Nibble) : Laws.TableRow.Statement (.sub x y) := by
  simp [Laws.TableRow.Statement, encode, rowMask, rowMatch, and_F00F]; decide

theorem Laws.TableRow.shr (x y : Nibble) : Laws.TableRow.Statement (.shr x y) := by
  simp [Laws.TableRow.Statement, encode, rowMask, rowMatch, and_F00F]; decide

theorem Laws.TableRow.subn (x y : Nibble) : Laws.TableRow.Statement (.subn x y) := by
  simp [Laws.TableRow.Statement, encode, rowMask, rowMatch, and_F00F]; decide

theorem Laws.TableRow.shl (x y : Nibble) : Laws.TableRow.Statement (.shl x y) := by
  simp [Laws.TableRow.Statement, encode, rowMask, rowMatch, and_F00F]; decide

theorem Laws.TableRow.sneReg (x y z : Nibble) : Laws.TableRow.Statement (.sneReg x y z) := by
  simp [Laws.TableRow.Statement, encode, rowMask, rowMatch, and_F000]; decide

theorem Laws.TableRow.ldI (nnn : Addr) : Laws.TableRow.Statement (.ldI nnn) := by
  simp [Laws.TableRow.Statement, encode, rowMask, rowMatch, and_F000]; decide

theorem Laws.TableRow.jpV0 (nnn : Addr) : Laws.TableRow.Statement (.jpV0 nnn) := by
  simp [Laws.TableRow.Statement, encode, rowMask, rowMatch, and_F000]; decide

theorem Laws.TableRow.rnd (x : Nibble) (kk : Byte) : Laws.TableRow.Statement (.rnd x kk) := by
  simp [Laws.TableRow.Statement, encode, rowMask, rowMatch, and_F000]; decide

theorem Laws.TableRow.drw (x y n : Nibble) : Laws.TableRow.Statement (.drw x y n) := by
  simp [Laws.TableRow.Statement, encode, rowMask, rowMatch, and_F000]; decide

theorem Laws.TableRow.skp (x : Nibble) : Laws.TableRow.Statement (.skp x) := by
  simp [Laws.TableRow.Statement, encode, rowMask, rowMatch, and_F0FF]; decide

theorem Laws.TableRow.sknp (x : Nibble) : Laws.TableRow.Statement (.sknp x) := by
  simp [Laws.TableRow.Statement, encode, rowMask, rowMatch, and_F0FF]; decide

theorem Laws.TableRow.ldVxDt (x : Nibble) : Laws.TableRow.Statement (.ldVxDt x) := by
  simp [Laws.TableRow.Statement, encode, rowMask, rowMatch, and_F0FF]; decide

theorem Laws.TableRow.ldVxK (x : Nibble) : Laws.TableRow.Statement (.ldVxK x) := by
  simp [Laws.TableRow.Statement, encode, rowMask, rowMatch, and_F0FF]; decide

theorem Laws.TableRow.ldDtVx (x : Nibble) : Laws.TableRow.Statement (.ldDtVx x) := by
  simp [Laws.TableRow.Statement, encode, rowMask, rowMatch, and_F0FF]; decide

theorem Laws.TableRow.ldStVx (x : Nibble) : Laws.TableRow.Statement (.ldStVx x) := by
  simp [Laws.TableRow.Statement, encode, rowMask, rowMatch, and_F0FF]; decide

theorem Laws.TableRow.addI (x : Nibble) : Laws.TableRow.Statement (.addI x) := by
  simp [Laws.TableRow.Statement, encode, rowMask, rowMatch, and_F0FF]; decide

theorem Laws.TableRow.ldF (x : Nibble) : Laws.TableRow.Statement (.ldF x) := by
  simp [Laws.TableRow.Statement, encode, rowMask, rowMatch, and_F0FF]; decide

theorem Laws.TableRow.ldB (x : Nibble) : Laws.TableRow.Statement (.ldB x) := by
  simp [Laws.TableRow.Statement, encode, rowMask, rowMatch, and_F0FF]; decide

theorem Laws.TableRow.ldMemVx (x : Nibble) : Laws.TableRow.Statement (.ldMemVx x) := by
  simp [Laws.TableRow.Statement, encode, rowMask, rowMatch, and_F0FF]; decide

theorem Laws.TableRow.ldVxMem (x : Nibble) : Laws.TableRow.Statement (.ldVxMem x) := by
  simp [Laws.TableRow.Statement, encode, rowMask, rowMatch, and_F0FF]; decide

end Sys2Proof
end

