-- ==== Sys2Proof/Tests/Slice0.lean ====
section
/-! SUPPORT. Tests: the well-formedness check, words written out from R52, and the vectors of spec/95_test_vectors.md,
one step each. Expected results come from the spec's text, never from the model. -/

namespace Sys2Proof.Tests

open Sys2Proof.Machine

/-- The state after one step, where it answers a next state. -/
def after (s : State) : Option State :=
  match step s with
  | .next t => some t
  | .fault _ => none
  | .refused _ => none

/-- The reset state with an instruction word at 0x200. -/
def start (w : Nat) : State := State.reset.withFetchWord 16 w

/-- `start` with two registers set. -/
def start2 (w : Nat) (x : Nibble) (a : Byte) (y : Nibble) (b : Byte) : State := ((start w).setReg x a).setReg y b

/-- `start` with `I` and one register set. -/
def startI (w : Nat) (i : Word) (x : Nibble) (a : Byte) : State := ((start w).setI i).setReg x a

/-- The keys of a list pressed, no other. -/
def pressed (ks : List (Fin 16)) : Vector Bool 16 := ks.foldl (fun v (k : Fin 16) => v.set k true) (Vector.replicate 16 false)

/-- A framebuffer with the pixels of a list on, all others off. -/
def lit (ps : List (Fin 64 × Fin 32)) : Framebuffer :=
  ps.foldl (fun fb p => Framebuffer.toggle fb p.1 p.2) Framebuffer.blank

/-- Which columns of the first `n` of a row are on. -/
def rowOf (fb : Framebuffer) (y : Fin 32) (cols : List (Fin 64)) : List Bool := cols.map fun x => Framebuffer.pixel fb x y

/-! ### WellFormed: each check refuses an ill-formed term -/

theorem test_wellFormed_canonical : (Instr.cls 0).wellFormed = true ∧ (Instr.shr 1 2).wellFormed = true := by decide
theorem test_wellFormed_cls : (Instr.cls 3).wellFormed = false := by decide
theorem test_wellFormed_ret : (Instr.ret 3).wellFormed = false := by decide
theorem test_wellFormed_seReg : (Instr.seReg 1 2 1).wellFormed = false := by decide
theorem test_wellFormed_sneReg : (Instr.sneReg 1 2 15).wellFormed = false := by decide

/-! ### Decode: every row's word, written out from the pattern column of R52 -/

theorem test_decode_cls : decode [0x00, 0xE0] = .ok (.cls 0, []) := by decide
theorem test_decode_ret : decode [0x00, 0xEE] = .ok (.ret 0, []) := by decide
theorem test_decode_jp : decode [0x12, 0x34] = .ok (.jp 0x234, []) := by decide
theorem test_decode_call : decode [0x23, 0x00] = .ok (.call 0x300, []) := by decide
theorem test_decode_seImm : decode [0x33, 0x2A] = .ok (.seImm 3 0x2A, []) := by decide
theorem test_decode_sneImm : decode [0x43, 0x2B] = .ok (.sneImm 3 0x2B, []) := by decide
theorem test_decode_seReg : decode [0x51, 0x21] = .ok (.seReg 1 2 1, []) := by decide
theorem test_decode_ldImm : decode [0x6A, 0x2F] = .ok (.ldImm 0xA 0x2F, []) := by decide
theorem test_decode_addImm : decode [0x71, 0x20] = .ok (.addImm 1 0x20, []) := by decide
theorem test_decode_ldReg : decode [0x81, 0x20] = .ok (.ldReg 1 2, []) := by decide
theorem test_decode_orReg : decode [0x81, 0x21] = .ok (.orReg 1 2, []) := by decide
theorem test_decode_andReg : decode [0x81, 0x22] = .ok (.andReg 1 2, []) := by decide
theorem test_decode_xorReg : decode [0x81, 0x23] = .ok (.xorReg 1 2, []) := by decide
theorem test_decode_addReg : decode [0x8F, 0x14] = .ok (.addReg 0xF 1, []) := by decide
theorem test_decode_sub : decode [0x81, 0x25] = .ok (.sub 1 2, []) := by decide
theorem test_decode_shr : decode [0x81, 0x26] = .ok (.shr 1 2, []) := by decide
theorem test_decode_subn : decode [0x81, 0x27] = .ok (.subn 1 2, []) := by decide
theorem test_decode_shl : decode [0x81, 0x0E] = .ok (.shl 1 0, []) := by decide
theorem test_decode_sneReg : decode [0x91, 0x20] = .ok (.sneReg 1 2 0, []) := by decide
theorem test_decode_ldI : decode [0xA2, 0xF0] = .ok (.ldI 0x2F0, []) := by decide
theorem test_decode_jpV0 : decode [0xBF, 0xFF] = .ok (.jpV0 0xFFF, []) := by decide
theorem test_decode_rnd : decode [0xC3, 0x0F] = .ok (.rnd 3 0x0F, []) := by decide
theorem test_decode_drw : decode [0xD1, 0x25] = .ok (.drw 1 2 5, []) := by decide
theorem test_decode_skp : decode [0xE2, 0x9E] = .ok (.skp 2, []) := by decide
theorem test_decode_sknp : decode [0xE2, 0xA1] = .ok (.sknp 2, []) := by decide
theorem test_decode_ldVxDt : decode [0xF3, 0x07] = .ok (.ldVxDt 3, []) := by decide
theorem test_decode_ldVxK : decode [0xF4, 0x0A] = .ok (.ldVxK 4, []) := by decide
theorem test_decode_ldDtVx : decode [0xF3, 0x15] = .ok (.ldDtVx 3, []) := by decide
theorem test_decode_ldStVx : decode [0xF3, 0x18] = .ok (.ldStVx 3, []) := by decide
theorem test_decode_addI : decode [0xF2, 0x1E] = .ok (.addI 2, []) := by decide
theorem test_decode_ldF : decode [0xF3, 0x29] = .ok (.ldF 3, []) := by decide
theorem test_decode_ldB : decode [0xF4, 0x33] = .ok (.ldB 4, []) := by decide
theorem test_decode_ldMemVx : decode [0xF2, 0x55] = .ok (.ldMemVx 2, []) := by decide
theorem test_decode_ldVxMem : decode [0xF2, 0x65, 0xAB] = .ok (.ldVxMem 2, [0xAB]) := by decide
/-- D-F1, D-F2, D-A29, D-K11: one unknown word of each group (R54). -/
theorem test_decode_unknown : [0x0000, 0x00E1, 0x8128, 0xE19F, 0xF1FF].map (decodeTableWord 16) = List.replicate 5 none := by
  decide
/-- D-C20, D-D2: bits 11:8 of group 0x0 are ignored (R50). -/
theorem test_decode_nonCanonical : decodeTableWord 16 0x03E0 = some (.cls 3) ∧ decodeTableWord 16 0x03EE = some (.ret 3) := by
  decide
theorem test_decode_truncated : decode [0x00] = .error .truncated := by decide

/-! ### The step -/

/-- D-C1. -/
theorem test_jp : (after (start 0x1234)).map (·.pc) = some 0x234 := by decide
/-- D-C3. -/
theorem test_jpV0 : (after ((start 0xB300).setReg 0 4)).map (·.pc) = some 0x304 := by decide
/-- D-C4: no reduction to 12 bits. -/
theorem test_jpV0_past_memory : (after ((start 0xBFFF).setReg 0 0xFF)).map (·.pc) = some 0x10FE := by decide
/-- D-C5. -/
theorem test_call : (after (start 0x2300)).map (fun t => (t.stack[0], t.sp, t.pc)) = some (0x200, 1, 0x300) := by decide
/-- D-C8: nothing but the status is written. -/
theorem test_call_full : (after { start 0x2300 with sp := 16 }).map (fun t => (t.status, t.sp, t.pc)) =
    some (.halted .stackOverflow, 16, 0x200) := by decide
/-- D-C6 (the word at 0x200): the popped address plus 2. -/
theorem test_ret : (after { start 0x00EE with sp := 1, stack := (State.reset.stack).set 0 0x0300 }).map
    (fun t => (t.sp, t.pc, t.stack[0])) = some (0, 0x302, 0x300) := by decide
/-- D-C7. -/
theorem test_ret_empty : (after { start 0x00EE with dt := 3 }).map (fun t => (t.status, t.sp, t.pc, t.dt)) =
    some (.halted .stackUnderflow, 0, 0x200, 3) := by decide
/-- D-C10, D-C11. -/
theorem test_seImm : (after ((start 0x332A).setReg 3 0x2A)).map (·.pc) = some 0x204 := by decide
theorem test_seImm_no : (after ((start 0x332B).setReg 3 0x2A)).map (·.pc) = some 0x202 := by decide
/-- D-C12, D-C13. -/
theorem test_sneImm_no : (after ((start 0x432A).setReg 3 0x2A)).map (·.pc) = some 0x202 := by decide
theorem test_sneImm : (after ((start 0x432B).setReg 3 0x2A)).map (·.pc) = some 0x204 := by decide
/-- D-C16 (a non-canonical word), D-C15. -/
theorem test_seReg : (after (start2 0x5121 1 7 2 7)).map (·.pc) = some 0x204 := by decide
theorem test_seReg_no : (after (start2 0x5120 1 7 2 8)).map (·.pc) = some 0x202 := by decide
/-- D-C17, D-C18. -/
theorem test_sneReg : (after (start2 0x9120 1 7 2 8)).map (·.pc) = some 0x204 := by decide
theorem test_sneReg_no : (after (start2 0x9110 1 7 2 8)).map (·.pc) = some 0x202 := by decide
/-- D-A1. -/
theorem test_ldImm : (after (start 0x6A2F)).map (fun t => (t.reg 0xA, t.pc)) = some (0x2F, 0x202) := by decide
/-- D-A2, D-A3: wraps, `VF` unchanged. -/
theorem test_addImm : (after (start2 0x7120 1 0xF0 0xF 0)).map (fun t => (t.reg 1, t.reg 0xF)) = some (0x10, 0) := by decide
theorem test_addImm_wraps : (after (start2 0x7101 1 0xFF 0xF 7)).map (fun t => (t.reg 1, t.reg 0xF)) = some (0, 7) := by decide
/-- D-A4. -/
theorem test_ldReg : (after (start2 0x8120 1 0 2 9)).map (·.reg 1) = some 9 := by decide
/-- D-A5: `VF` unchanged. -/
theorem test_orReg : (after ((start2 0x8121 1 0x0F 2 0xF0).setReg 0xF 9)).map (fun t => (t.reg 1, t.reg 0xF)) =
    some (0xFF, 9) := by decide
/-- D-A6. -/
theorem test_andReg : (after (start2 0x8122 1 0x3C 2 0x0F)).map (·.reg 1) = some 0x0C := by decide
/-- D-A7, D-A8. -/
theorem test_xorReg : (after (start2 0x8123 1 0xFF 2 0x0F)).map (·.reg 1) = some 0xF0 := by decide
theorem test_xorReg_self : (after ((start 0x8113).setReg 1 0x5A)).map (·.reg 1) = some 0 := by decide
/-- S1, D-A12: the carry overwrites the sum in `VF`. -/
theorem test_addReg : (after (start2 0x8124 1 250 2 10)).map (fun t => (t.reg 1, t.reg 0xF)) = some (4, 1) := by decide
theorem test_addReg_vf : (after (start2 0x8F14 0xF 200 1 100)).map (·.reg 0xF) = some 1 := by decide
/-- D-A15, D-A16. -/
theorem test_sub_borrow : (after (start2 0x8125 1 5 2 10)).map (fun t => (t.reg 1, t.reg 0xF)) = some (251, 0) := by decide
theorem test_sub_equal : (after (start2 0x8125 1 7 2 7)).map (fun t => (t.reg 1, t.reg 0xF)) = some (0, 1) := by decide
/-- S5, D-A23: `y` ignored. -/
theorem test_shr : (after ((start 0x8106).setReg 1 3)).map (fun t => (t.reg 1, t.reg 0xF)) = some (1, 1) := by decide
theorem test_shr_ignores_y : (after (start2 0x8126 1 4 2 0xFF)).map (fun t => (t.reg 1, t.reg 2, t.reg 0xF)) =
    some (2, 0xFF, 0) := by decide
/-- S3, S4. -/
theorem test_subn : (after (start2 0x8127 1 5 2 10)).map (fun t => (t.reg 1, t.reg 0xF)) = some (5, 1) := by decide
theorem test_subn_borrow : (after (start2 0x8127 1 10 2 5)).map (fun t => (t.reg 1, t.reg 0xF)) = some (251, 0) := by decide
/-- D-A25, D-A28. -/
theorem test_shl : (after ((start 0x810E).setReg 1 0x80)).map (fun t => (t.reg 1, t.reg 0xF)) = some (0, 1) := by decide
theorem test_shl_vf : (after ((start 0x8F0E).setReg 0xF 0x81)).map (·.reg 0xF) = some 1 := by decide
/-- D-M1. -/
theorem test_ldI : (after (start 0xA2F0)).map (·.i) = some 0x2F0 := by decide
/-- D-M3, D-M4. -/
theorem test_addI_wraps : (after (startI 0xF11E 0xFFFF 1 1)).map (fun t => (t.i, t.reg 0xF)) = some (0, 0) := by decide
theorem test_addI_past_memory : (after (startI 0xF11E 0x0FFF 1 1)).map (·.i) = some 0x1000 := by decide
/-- D-M5, D-M7: the whole register, not its low nibble. -/
theorem test_ldF : (after ((start 0xF129).setReg 1 0x0F)).map (·.i) = some 75 := by decide
theorem test_ldF_large : (after ((start 0xF129).setReg 1 0xFF)).map (·.i) = some 1275 := by decide
/-- D-M8, D-M11. -/
theorem test_ldB : (after (startI 0xF433 0x300 4 156)).map (fun t => t.mem.readBytes 0x2FF 5) = some [0, 1, 5, 6, 0] := by
  decide
theorem test_ldB_out : (after (startI 0xF133 4094 1 255)).map (fun t => (t.status, t.pc, t.mem.read 4095)) =
    some (.halted .memoryOutOfBounds, 0x200, 0) := by decide
/-- D-M12; D-M16. -/
theorem test_ldMemVx : (after ((((start 0xF255).setI 0x400).setReg 0 1).setReg 1 2 |>.setReg 2 3)).map
    (fun t => (t.mem.readBytes 0x400 4, t.i)) = some ([1, 2, 3, 0], 0x400) := by decide
theorem test_ldMemVx_out : (after (startI 0xF055 4096 0 0x77)).map (·.status) = some (.halted .memoryOutOfBounds) := by decide
/-- D-M19: the glyph of digit 0; D-M18: no wrap of the bound. -/
theorem test_ldVxMem : (after (start 0xF465)).map (fun t => t.v.toList.take 6) =
    some [0xF0, 0x90, 0x90, 0x90, 0xF0, 0] := by decide
theorem test_ldVxMem_out : (after ((start 0xF065).setI 0xFFFF)).map (·.status) = some (.halted .memoryOutOfBounds) := by decide
/-- D-T1. -/
theorem test_ldVxDt : (after ((start 0xF307).setDt 7)).map (fun t => (t.reg 3, t.dt)) = some (7, 6) := by decide
/-- D-T2, D-T3. -/
theorem test_ldDtVx : (after ((start 0xF315).setReg 3 5)).map (·.dt) = some 4 := by decide
theorem test_ldDtVx_zero : (after ((start 0xF115).setDt 9)).map (·.dt) = some 0 := by decide
/-- D-T5, D-T6. -/
theorem test_ldStVx_one : (after ((start 0xF118).setReg 1 1)).map (fun t => (t.st, soundActive t)) = some (0, false) := by decide
theorem test_ldStVx : (after ((start 0xF318).setReg 3 3)).map (fun t => (t.st, soundActive t)) = some (2, true) := by decide
/-- D-T7, D-T8: saturation; independent counters. -/
theorem test_timers : (after (((start 0x8000).setDt 1).setSt 200)).map (fun t => (t.dt, t.st)) = some (0, 199) := by decide
theorem test_timers_zero : (after (start 0x8000)).map (fun t => (t.dt, t.st)) = some (0, 0) := by decide
/-- D-K1, D-K5. -/
theorem test_skp : (after (((start 0xE29E).setReg 2 5).setKeys (pressed [5]))).map (fun t => (t.pc, t.keys)) =
    some (0x204, pressed []) := by decide
theorem test_skp_out : (after ((start 0xE19E).setReg 1 16)).map (fun t => (t.status, t.pc)) =
    some (.halted .keyIndexOutOfRange, 0x200) := by decide
/-- D-K3, D-K4. -/
theorem test_sknp : (after (((start 0xE2A1).setReg 2 5).setKeys (pressed [6]))).map (·.pc) = some 0x204 := by decide
theorem test_sknp_no : (after (((start 0xE2A1).setReg 2 5).setKeys (pressed [5]))).map (·.pc) = some 0x202 := by decide
/-- D-K8, D-K9. -/
theorem test_ldVxK : (after ((start 0xF40A).setKeys (pressed [9, 3]))).map (fun t => (t.reg 4, t.pc, t.keys)) =
    some (3, 0x202, pressed []) := by decide
theorem test_ldVxK_waits : (after (((start 0xF40A).setReg 4 9).setDt 2)).map (fun t => (t.reg 4, t.pc, t.dt)) =
    some (9, 0x200, 1) := by decide
/-- D-D1. -/
theorem test_cls : (after ((start 0x00E0).setFb (lit [(3, 4), (63, 31)]))).map (fun t => (t.fb.pixel 3 4, t.fb.pixel 63 31, t.pc)) =
    some (false, false, 0x202) := by decide
/-- D-D5: a partial collision; D-D3 and S8: the wrap at the right edge. -/
theorem test_drw_collision :
    (after (((start 0xD011).setI 0x300).setMem (((start 0xD011).mem).write 0x300 0x18) |>.setFb
      (lit [(0, 0), (1, 0), (2, 0), (3, 0)]))).map (fun t => (rowOf t.fb 0 [0, 1, 2, 3, 4, 5], t.reg 0xF)) =
    some ([true, true, true, false, true, false], 1) := by decide
theorem test_drw_wraps :
    (after (((start2 0xD011 0 62 1 0).setI 0x300).setMem (((start 0xD011).mem).write 0x300 0xFF))).map
      (fun t => (rowOf t.fb 0 [61, 62, 63, 0, 5, 6], t.reg 0xF)) =
    some ([false, true, true, true, true, false], 0) := by decide
/-- D-D7, D-D8: a sprite of height 0 writes `VF` and is still checked. -/
theorem test_drw_empty : (after (startI 0xD010 4096 0xF 5)).map (fun t => (t.reg 0xF, t.pc)) = some (0, 0x202) := by decide
theorem test_drw_empty_out : (after (startI 0xD010 4097 0xF 5)).map (fun t => (t.reg 0xF, t.status)) =
    some (5, .halted .memoryOutOfBounds) := by decide
/-- D-R1, D-R2, D-R3: the byte RND writes for a given draw. -/
theorem test_rndResult : [rndResult 0xB7 0x0F, rndResult 0xFF 0x00, rndResult 0xA5 0xFF] = [0x07, 0x00, 0xA5] := by decide
/-- RND advances `PC` whatever the draw (R116). -/
theorem test_rnd : (after (start 0xC30F)).map (·.pc) = some 0x202 := by decide
/-- D-F1: a step of the empty image. -/
theorem test_unknown : (after State.reset).map (fun t => (t.ir, t.pc, t.status)) = some (0, 0x202, .running) ∧
    unknownOpcodeOut State.reset = true := by decide
/-- D-F3, second step: the fetch check; `IR` keeps its old value. -/
theorem test_fetch_out : (after ((State.reset.setPc 0xFFF).setIr 0x1FFF)).map (fun t => (t.status, t.pc, t.ir)) =
    some (.halted .programCounterOutOfBounds, 0xFFF, 0x1FFF) := by decide
/-- D-F5, second step: an odd `PC` is fetched bytewise. -/
theorem test_fetch_odd : (after (placeWord (State.reset.setPc 0x203) 0x6A2A)).map (fun t => (t.ir, t.reg 0xA, t.pc)) =
    some (0x6A2A, 0x2A, 0x205) := by decide
/-- D-F6. -/
theorem test_halted : after ((start 0x1234).setStatus (.halted .stackOverflow)) =
    some ((start 0x1234).setStatus (.halted .stackOverflow)) := by rfl
/-- P4: a program image at 512, and what the host reads. -/
theorem test_create : (State.create [0x60, 0x05, 0xF0, 0x15]).toOption.map (fun s => (s.mem.readBytes 511 6, s.pc)) =
    some ([0, 0x60, 0x05, 0xF0, 0x15, 0], 512) := by decide
theorem test_setKey : (setKey 7 State.reset).toOption.map (·.keys) = some (pressed [7]) ∧
    (setKey 16 State.reset).toOption = none := by decide
theorem test_keySetPort : (keySetPort 0x0088 (State.reset.setKeys (pressed [0]))).keys = pressed [0, 3, 7] := by decide
theorem test_readPixel : readPixel 63 31 (State.reset.setFb (lit [(63, 31)])) = .ok true ∧
    readPixel 64 0 State.reset = .error .coordinateOutOfRange ∧ fbRdData 63 31 (State.reset.setFb (lit [(63, 31)])) = true := by
  decide
/-- The codes of R121. -/
theorem test_errCode : [Status.running, .halted .programCounterOutOfBounds, .halted .stackOverflow,
    .halted .stackUnderflow, .halted .memoryOutOfBounds, .halted .keyIndexOutOfRange].map
    (fun e => errCode (State.reset.setStatus e)) = [0, 1, 2, 3, 4, 5] := by decide

/-! ### Witnesses: for every statement with hypotheses, a state and operands that meet them, each clause at the edge of
its range -/

/-- A register holding a byte. -/
def with1 (x : Nibble) (a : Byte) : State := State.reset.setReg x a

/-- `I` at an address. -/
def atI (i : Word) : State := State.reset.setI i

/-- A stack of `n` entries. -/
def atSp (n : BitVec 5) : State := { State.reset with sp := n }

/-- The steps that execute LD DT, V3 and LD ST, V3. -/
def timerStep (w : Nat) : State := (start w).setReg 3 5

theorem witness_EncodeOfDecode : decodeWord 0x8F0E = some (.shl 0xF 0) := by decide
theorem witness_RowSelected : (∃ j, decodeWord 0x812E = some j ∧ rowMask j = rowMask (.shl 0 0) ∧
    rowMatch j = rowMatch (.shl 0 0)) ∧ 0x812E &&& rowMask (.shl 0 0) = rowMatch (.shl 0 0) :=
  ⟨⟨.shl 1 2, by decide, by decide, by decide⟩, by decide⟩
theorem witness_Fetch : (State.reset.setPc 4094).pc.toNat + 1 < 4096 ∧ 4096 ≤ (State.reset.setPc 4095).pc.toNat + 1 ∧
    (State.reset.setPc 4095).status = .running := by decide
theorem witness_StepRunsDecoded : (start 0x1234).status = .running ∧ (start 0x1234).pc.toNat + 1 < 4096 ∧
    decode [(start 0x1234).mem.read (start 0x1234).pc.toNat, (start 0x1234).mem.read ((start 0x1234).pc.toNat + 1)] =
      .ok (.jp 0x234, []) := by decide
theorem witness_HaltedStep : (State.reset.setStatus (.halted .stackOverflow)).status = .halted .stackOverflow := rfl
/-- A completed step that loads no timer, one that loads `DT`, one that loads `ST`, and a fatal step. -/
theorem witness_KeyClearAndTimerTick :
    (∃ t, step (start 0x6A2F) = .next t ∧ t.status = .running) ∧ fetched (start 0x6A2F) = some (.ldImm 0xA 0x2F) ∧
    (∃ t, step (timerStep 0xF315) = .next t ∧ t.status = .running) ∧ fetched (timerStep 0xF315) = some (.ldDtVx 3) ∧
    (∃ t, step (timerStep 0xF318) = .next t ∧ t.status = .running) ∧ fetched (timerStep 0xF318) = some (.ldStVx 3) ∧
    (∃ t, step (start 0x00EE) = .next t ∧ t.status ≠ .running) ∧
    (start 0x6A2F).status = .running ∧ (timerStep 0xF315).status = .running ∧ (timerStep 0xF318).status = .running ∧
    (start 0x00EE).status = .running :=
  ⟨⟨_, rfl, by decide⟩, by decide, ⟨_, rfl, by decide⟩, by decide, ⟨_, rfl, by decide⟩, by decide, ⟨_, rfl, by decide⟩,
    by decide, by decide, by decide, by decide⟩
theorem witness_UnknownWord : State.reset.status = .running ∧ fetch State.reset = some 0 ∧ decodeWord 0 = none := by decide
/-- A fetch that fails, and an instruction that raises. -/
theorem witness_FatalStep :
    (∃ t, step (State.reset.setPc 4095) = .next t ∧ t.status = .halted .programCounterOutOfBounds) ∧
    fetch (State.reset.setPc 4095) = none ∧ (State.reset.setPc 4095).status = .running ∧
    (∃ t, step (start 0x00EE) = .next t ∧ t.status = .halted .stackUnderflow) ∧ fetch (start 0x00EE) = some 0x00EE ∧
    (start 0x00EE).status = .running :=
  ⟨⟨_, rfl, by decide⟩, by decide, by decide, ⟨_, rfl, by decide⟩, by decide, by decide⟩
theorem witness_ExecRaises : (atSp 16).status = .running ∧ (atSp 16).sp.toNat ≤ 16 := by decide
theorem witness_Call : (atSp 15).sp.toNat < 16 ∧ (atSp 16).sp.toNat = 16 := by decide
theorem witness_Return : (atSp 1).sp.toNat = (0 : Fin 16).val + 1 ∧ (atSp 16).sp.toNat = (15 : Fin 16).val + 1 ∧
    (atSp 0).sp.toNat = 0 := by decide
theorem witness_ImmediateSkips : (with1 15 255).reg 15 = 255 ∧ (with1 15 255).reg 15 ≠ 254 := by decide
theorem witness_RegisterSkips : (with1 1 7).reg 1 = (with1 1 7).reg 1 ∧ (with1 1 7).reg 1 ≠ (with1 1 7).reg 2 := by decide
/-- The destination is any register but `VF`, up to `V[14]`; another register is any other. -/
theorem witness_FlagDestination : (14 : Nibble) ≠ 15 ∧ (13 : Nibble) ≠ 14 ∧ (13 : Nibble) ≠ 15 := by decide
/-- Each of the five instructions, with the flag its rule gives: 200 + 200 carries, 5 - 10 borrows and 10 - 5 does not. -/
theorem witness_FlagWinsInVf :
    (1 : Nat) = (if ((with1 15 200).reg 15).toNat + ((with1 15 200).reg 15).toNat > 255 then 1 else 0) ∧
    (0 : Nat) = (if ((with1 1 10).reg 15).toNat ≥ ((with1 1 10).reg 1).toNat then 1 else 0) ∧
    (1 : Nat) = (if ((with1 1 10).reg 1).toNat ≥ ((with1 1 10).reg 15).toNat then 1 else 0) ∧
    1 = ((with1 15 0x81).reg 15).toNat % 2 ∧ 1 = ((with1 15 0x81).reg 15).toNat / 128 := by decide
theorem witness_Bcd : (atI 4093).mem.wf = true ∧ (atI 4093).i.toNat + 3 ≤ 4096 ∧ (atI 4094).mem.wf = true ∧
    4096 < (atI 4094).i.toNat + 3 := by decide
/-- All 16 registers end at 4095 from 4080; one register ends there from 4095. -/
theorem witness_Bulk :
    (atI 4080).mem.wf = true ∧ (atI 4080).i.toNat + ((15 : Nibble).toNat + 1) ≤ 4096 ∧
    (atI 4081).mem.wf = true ∧ 4096 < (atI 4081).i.toNat + ((15 : Nibble).toNat + 1) ∧
    (atI 4095).i.toNat + ((0 : Nibble).toNat + 1) ≤ 4096 ∧ 4096 < (atI 4096).i.toNat + ((0 : Nibble).toNat + 1) ∧
    (15 : Nibble).toNat ≤ (15 : Nibble).toNat := by decide
/-- The hypotheses of StoreSeenByNextFetch on the state, for the last word that another can follow. -/
def storeAt (w : Word) (i : Word) : State := placeWord ((State.reset.setPc 4092).setI i) w

/-- All 16 registers ending at 4095, which is `PC + 3`; the first above and the last below the two bytes. -/
theorem witness_StoreSeen_bulk :
    ([4080, 4094, 4095, 4078, 4079].map fun i => ((storeAt 0xFF55 i).status, (storeAt 0xFF55 i).mem.wf,
      fetched (storeAt 0xFF55 i))) = List.replicate 5 (.running, true, some (.ldMemVx 15)) ∧
    (storeAt 0xFF55 4080).pc.toNat + 3 < 4096 ∧ (storeAt 0xFF55 4080).i.toNat + ((15 : Nibble).toNat + 1) ≤ 4096 ∧
    (storeAt 0xFF55 4080).i.toNat + (14 : Nibble).toNat = (storeAt 0xFF55 4080).pc.toNat + 2 ∧
    (storeAt 0xFF55 4080).i.toNat + (15 : Nibble).toNat = (storeAt 0xFF55 4080).pc.toNat + 3 ∧
    (storeAt 0xFF55 4079).i.toNat + (15 : Nibble).toNat = (storeAt 0xFF55 4079).pc.toNat + 2 ∧
    (storeAt 0xFF55 4079).i.toNat + (15 : Nibble).toNat < (storeAt 0xFF55 4079).pc.toNat + 3 ∧
    (storeAt 0xFF55 4078).i.toNat + (15 : Nibble).toNat < (storeAt 0xFF55 4078).pc.toNat + 2 := by decide
/-- One register at `PC + 2` and at `PC + 3`: the other byte is the old one. -/
theorem witness_StoreSeen_one :
    ([4094, 4095].map fun i => (fetched (storeAt 0xF055 i), decide ((storeAt 0xF055 i).i.toNat + 1 ≤ 4096))) =
      List.replicate 2 (some (.ldMemVx 0), true) ∧
    (storeAt 0xF055 4094).i.toNat + (0 : Nibble).toNat = (storeAt 0xF055 4094).pc.toNat + 2 ∧
    (storeAt 0xF055 4095).i.toNat + (0 : Nibble).toNat = (storeAt 0xF055 4095).pc.toNat + 3 ∧
    (storeAt 0xF055 4095).pc.toNat + 2 < (storeAt 0xF055 4095).i.toNat := by decide
/-- LD B with its digits on both bytes of the next word, on one of them, and on none, from the top of memory and, where
the digits start at `PC + 2` or later, from 0x200. -/
theorem witness_StoreSeen_bcd :
    ([4093, 4092, 4091].map fun i => ((storeAt 0xF133 i).status, (storeAt 0xF133 i).mem.wf, fetched (storeAt 0xF133 i),
      decide ((storeAt 0xF133 i).i.toNat + 3 ≤ 4096), ((storeAt 0xF133 i).pc.toNat + 2 : Int) - (storeAt 0xF133 i).i.toNat)) =
      [(.running, true, some (.ldB 1), true, 1), (.running, true, some (.ldB 1), true, 2),
       (.running, true, some (.ldB 1), true, 3)] ∧
    ([0x202, 0x203, 0x204].map fun i => ((startI 0xF133 i 1 157).status, (startI 0xF133 i 1 157).mem.wf,
      fetched (startI 0xF133 i 1 157), ((startI 0xF133 i 1 157).pc.toNat + 2 : Int) - (startI 0xF133 i 1 157).i.toNat)) =
      [(.running, true, some (.ldB 1), 0), (.running, true, some (.ldB 1), -1), (.running, true, some (.ldB 1), -2)] := by
  decide
/-- D26: the digits 1, 5, 7 stored over the next instruction are the next word. -/
theorem test_storeSeen : (after (startI 0xF133 0x202 1 157)).bind fetch = some 0x0105 ∧
    (after (startI 0xF133 0x203 1 157)).bind fetch = some 0x0001 := by decide
theorem witness_KeySkips : ((with1 1 15).reg 1).toNat = (15 : Fin 16).val ∧ 16 ≤ ((with1 1 16).reg 1).toNat := by decide
/-- Key 15 alone; keys 3 and 9; no key. -/
theorem witness_KeyWait :
    (State.reset.setKeys (pressed [15])).keys[(15 : Fin 16)] = true ∧
    (∀ j : Fin 16, j < 15 → (State.reset.setKeys (pressed [15])).keys[j] = false) ∧
    (State.reset.setKeys (pressed [9, 3])).keys[(3 : Fin 16)] = true ∧
    (∀ j : Fin 16, j < 3 → (State.reset.setKeys (pressed [9, 3])).keys[j] = false) ∧
    (∀ k : Fin 16, State.reset.keys[k] = false) := by decide
theorem witness_OnlyRnd : (∀ x kk, Instr.jp 0x234 ≠ .rnd x kk) ∧ ∃ t, exec (.jp 0x234) State.reset = .next t :=
  ⟨(by intro x kk h; cases h), _, rfl⟩
/-- A sprite of 15 rows ends at 4095 from 4081; a sprite of no row is still checked, from 4096 on. -/
theorem witness_Draw : (atI 4081).i.toNat + (15 : Nibble).toNat ≤ 4096 ∧ 4096 < (atI 4082).i.toNat + (15 : Nibble).toNat ∧
    (atI 4096).i.toNat + (0 : Nibble).toNat ≤ 4096 ∧ 4096 < (atI 4097).i.toNat + (0 : Nibble).toNat ∧
    (14 : Nibble) ≠ 15 := by decide
/-- The last byte of a digit store, and the last byte of a bulk store. -/
theorem witness_OnlyStores :
    (∃ t, exec (.ldB 1) (startI 0 0x300 1 157) = .next t ∧ t.mem.read 0x302 ≠ (startI 0 0x300 1 157).mem.read 0x302) ∧
    (∃ t, exec (.ldMemVx 1) (startI 0 0x300 1 157) = .next t ∧
      t.mem.read 0x301 ≠ (startI 0 0x300 1 157).mem.read 0x301) :=
  ⟨⟨_, rfl, by decide⟩, ⟨_, rfl, by decide⟩⟩
/-- `VF` changes as a flag, by DRW, and as the destination. -/
theorem witness_VfWriters :
    (∃ t, exec (.addReg 1 1) (with1 1 200) = .next t ∧ t.reg 15 ≠ (with1 1 200).reg 15) ∧
    (∃ t, exec (.drw 0 0 0) (with1 15 5) = .next t ∧ t.reg 15 ≠ (with1 15 5).reg 15) ∧
    (∃ t, exec (.ldImm 15 7) State.reset = .next t ∧ t.reg 15 ≠ State.reset.reg 15) ∧
    (∃ t, exec (.ldVxDt 15) (State.reset.setDt 7) = .next t ∧ t.reg 15 ≠ (State.reset.setDt 7).reg 15) :=
  ⟨⟨_, rfl, by decide⟩, ⟨_, rfl, by decide⟩, ⟨_, rfl, by decide⟩, ⟨_, rfl, by decide⟩⟩
/-- Each storage changed by one of its writers. -/
theorem witness_SpecialState :
    (∃ t, exec (.cls 0) (State.reset.setFb (lit [(3, 4)])) = .next t ∧ t.fb.pixel 3 4 ≠ (lit [(3, 4)]).pixel 3 4) ∧
    (∃ t, exec (.call 0x300) State.reset = .next t ∧ t.stack ≠ State.reset.stack ∧ t.sp ≠ State.reset.sp) ∧
    (∃ t, exec (.ret 0) (atSp 1) = .next t ∧ t.sp ≠ (atSp 1).sp) ∧
    (∃ t, exec (.ldI 0xFFF) State.reset = .next t ∧ t.i ≠ State.reset.i) ∧
    (∃ t, exec (.ldDtVx 1) (with1 1 7) = .next t ∧ t.dt ≠ (with1 1 7).dt) ∧
    (∃ t, exec (.ldStVx 1) (with1 1 7) = .next t ∧ t.st ≠ (with1 1 7).st) :=
  ⟨⟨_, rfl, by decide⟩, ⟨_, rfl, by decide⟩, ⟨_, rfl, by decide⟩, ⟨_, rfl, by decide⟩, ⟨_, rfl, by decide⟩,
    ⟨_, rfl, by decide⟩⟩
theorem witness_Create : (List.replicate 3584 (0 : Byte)).length ≤ 3584 ∧ 3584 < (List.replicate 3585 (0 : Byte)).length := by
  simp only [List.length_replicate]
  decide
/-- The font's last byte, the bytes between it and the image, and the first byte after an image that ends memory less one. -/
theorem witness_CreateClauses : 79 < 80 ∧ (80 ≤ 80 ∧ 80 < 512) ∧ (80 ≤ 511 ∧ 511 < 512) ∧
    (80 ≤ 4095 ∧ 512 + (List.replicate 3583 (0 : Byte)).length ≤ 4095) := by
  simp only [List.length_replicate]
  decide
theorem witness_SetKey : 15 < 16 ∧ 16 ≤ 16 := by decide
theorem witness_ReadPixel : (64 ≤ 64 ∨ 32 ≤ 0) ∧ (64 ≤ 63 ∨ 32 ≤ 32) := by decide
theorem witness_PlacedWord : (State.reset.setPc 4094).mem.wf = true ∧ (State.reset.setPc 4094).pc.toNat + 1 < 4096 ∧
    0xFFFF < 65536 ∧ 4093 ≠ (State.reset.setPc 4094).pc.toNat ∧ 4093 ≠ (State.reset.setPc 4094).pc.toNat + 1 := by decide

/-- A full stack of the largest entries, at the largest `PC`, meets the invariant. -/
def edge : State := { State.reset with sp := 16, stack := Vector.replicate 16 4094, pc := 0x10FE }

theorem witness_Inv : edge.Inv ∧ ∃ t, step edge = .next t :=
  ⟨⟨by decide, by decide, by decide, by decide⟩, _, rfl⟩
theorem witness_Inv_running : (start 0x2300).Inv ∧ (∃ t, step (start 0x2300) = .next t) ∧ (start 0x2300).status = .running :=
  ⟨⟨by decide, by decide, by decide, by decide⟩, ⟨_, rfl⟩, by decide⟩
theorem witness_HostMove : edge.Inv ∧ (∃ t, hostMove (.create [0x12, 0x00]) edge = .next t) ∧
    (∃ t, hostMove (.setKey 15) edge = .next t) ∧ (∃ t, hostMove (.setKey 16) edge = .next t) ∧
    ∃ t, hostMove .step edge = .next t :=
  ⟨witness_Inv.1, ⟨_, rfl⟩, ⟨_, rfl⟩, ⟨_, rfl⟩, _, rfl⟩
/-- Two states that differ in `IR` and in the one slot above `SP`. -/
theorem witness_Stale : StaleEquiv (atSp 15) { atSp 15 with ir := 7, stack := (State.reset.stack).set 15 0x300 } ∧
    (atSp 15).sp.toNat ≤ 16 ∧ ∃ t, step (atSp 15) = .next t :=
  ⟨⟨rfl, by decide⟩, by decide, _, rfl⟩

end Sys2Proof.Tests
end

section
/-! PROOF. The invariant of the state (spec/10_state.md section 9): which updates keep it, that every instruction and
every step keeps it, and that every move of the host keeps it. -/

namespace Sys2Proof.Machine

variable {s t : State}

/-! ### Updates that keep the invariant -/

/-- The invariant reads memory, `SP`, the stack and `PC` alone. -/
theorem State.Inv.congr (hs : s.Inv) (hmem : t.mem = s.mem) (hsp : t.sp = s.sp) (hstack : t.stack = s.stack)
    (hpc : t.pc = s.pc) : t.Inv where
  memWf := hmem ▸ hs.memWf
  spBound := hsp ▸ hs.spBound
  stackBound := hsp ▸ hstack ▸ hs.stackBound
  pcBound := hpc ▸ hs.pcBound

theorem State.Inv.setMem (hs : s.Inv) {m : Memory} (hm : m.wf = true) : (s.setMem m).Inv :=
  { hs with memWf := hm }

theorem State.Inv.setPc (hs : s.Inv) {p : Word} (hp : p.toNat ≤ 0x10FE) : (s.setPc p).Inv :=
  { hs with pcBound := hp }

/-- From a `PC` that passed the fetch check the ordinary advance stays below the bound of R14. -/
theorem State.Inv.advance (hs : s.Inv) (hpc : s.pc.toNat ≤ 4094) : s.advance.Inv :=
  hs.setPc (by rw [BitVec.toNat_add]; simp; omega)

/-- From a `PC` that passed the fetch check a skip stays below the bound of R14. -/
theorem State.Inv.skipIf (hs : s.Inv) (hpc : s.pc.toNat ≤ 4094) (c : Bool) : (s.skipIf c).Inv := by
  cases c with
  | false => exact hs.advance hpc
  | true => exact hs.setPc (by rw [BitVec.toNat_add]; simp; omega)

/-- A push counts one more entry, and the new one is the pushed address. -/
theorem State.Inv.pushed (hs : s.Inv) {val : Word} (hval : val.toNat ≤ 4094) (h : s.sp.toNat < 16) :
    (s.pushed val h).Inv := by
  have hsp : (s.sp + 1).toNat = s.sp.toNat + 1 := by rw [BitVec.toNat_add]; simp; omega
  refine ⟨hs.memWf, ?_, fun j hj => ?_, hs.pcBound⟩
  · rw [State.pushed_sp, hsp]; omega
  · rw [State.pushed_sp, hsp] at hj
    simp only [State.pushed_stack, Fin.getElem_fin, Vector.getElem_set]
    split
    · exact hval
    · exact hs.stackBound j (by omega)

/-- A pop counts one entry less, and those that stay valid were valid. -/
theorem State.Inv.popped (hs : s.Inv) (h0 : s.sp ≠ 0) : s.popped.Inv := by
  have hsp : (s.sp - 1).toNat = s.sp.toNat - 1 := BitVec.toNat_sub_of_le (by bv_omega)
  have hbound := hs.spBound
  refine ⟨hs.memWf, ?_, fun j hj => ?_, hs.pcBound⟩
  · rw [State.popped_sp, hsp]; omega
  · rw [State.popped_sp, hsp] at hj
    exact hs.stackBound j (by omega)

/-- The newest stack entry is a valid one. -/
theorem State.Inv.top_le (hs : s.Inv) (h0 : s.sp ≠ 0) (h : s.sp.toNat - 1 < 16) :
    (s.stack[s.sp.toNat - 1]).toNat ≤ 4094 := by
  have hpos : s.sp.toNat ≠ 0 := fun e => h0 (BitVec.eq_of_toNat_eq e)
  exact hs.stackBound ⟨s.sp.toNat - 1, h⟩ (by simp only; omega)

/-! ### Addresses an instruction computes -/

/-- The target of JP V0 is the unbounded sum (R71). -/
theorem offsetTarget_toNat (nnn : Addr) : (offsetTarget s nnn).toNat = nnn.toNat + (s.reg 0).toNat := by
  rw [offsetTarget, BitVec.toNat_add, addrOperand_toNat, regOperand16_toNat]
  omega

/-- What was fetched stood below the last address (R38). -/
theorem pc_le_of_fetch_eq_some {w : Word} (h : fetch s = some w) : s.pc.toNat ≤ 4094 := by
  by_contra hpc
  rw [fetch_of_ge (by omega)] at h
  cases h

/-! ### Instructions and steps -/

/-- The effect of an instruction keeps the invariant, from a `PC` that passed the fetch check. The stores need that the
check of R37 passed, RET that the popped entry is valid. -/
theorem Effect.keeps_inv {i : Instr} (he : Effect s t i) (hs : s.Inv) (hpc : s.pc.toNat ≤ 4094)
    (hf : fatalOf i s = none) : t.Inv := by
  cases i with
  | cls _ | ldImm _ _ | addImm _ _ | ldReg _ _ | orReg _ _ | andReg _ _ | xorReg _ _ | addReg _ _ | sub _ _ | shr _ _
  | subn _ _ | shl _ _ | ldI _ | rnd _ _ | drw _ _ _ | ldVxDt _ | ldDtVx _ | ldStVx _ | addI _ | ldF _ | ldVxMem _ =>
    cases he
    exact State.Inv.advance (hs.congr rfl rfl rfl rfl) hpc
  | seImm _ _ | sneImm _ _ | seReg _ _ _ | sneReg _ _ _ | skp _ | sknp _ =>
    cases he
    exact hs.skipIf hpc _
  | jp nnn =>
    cases he
    exact hs.setPc (by rw [addrOperand_toNat]; omega)
  | jpV0 nnn =>
    cases he
    exact hs.setPc (by rw [offsetTarget_toNat]; omega)
  | call nnn =>
    obtain ⟨hsp, rfl⟩ := he
    exact (hs.pushed hpc hsp).setPc (by rw [addrOperand_toNat]; omega)
  | ret _ =>
    obtain ⟨h0, hsp, rfl⟩ := he
    have htop := hs.top_le h0 hsp
    exact (hs.popped h0).setPc (by rw [BitVec.toNat_add]; simp [params]; omega)
  | ldVxK x =>
    rcases he with ⟨k, -, rfl⟩ | ⟨-, rfl⟩
    · exact State.Inv.advance (hs.congr rfl rfl rfl rfl) hpc
    · exact hs
  | ldB x =>
    cases he
    have hfits : s.i.toNat + 3 ≤ 4096 := by simpa [fatalOf] using hf
    exact (hs.setMem (Memory.wf_writeBytes hs.memWf _ hfits)).advance hpc
  | ldMemVx x =>
    cases he
    have hfits : s.i.toNat + (x.toNat + 1) ≤ 4096 := by simpa [fatalOf] using hf
    exact (hs.setMem (Memory.wf_writeBytes hs.memWf _ (by rwa [bulkBytes_length]))).advance hpc

/-- Executing an instruction keeps the invariant, from a `PC` that passed the fetch check. -/
theorem exec_keeps_inv {i : Instr} (hs : s.Inv) (hpc : s.pc.toNat ≤ 4094) (h : exec i s = .next t) : t.Inv := by
  rcases exec_next h with ⟨e, -, rfl⟩ | ⟨hf, he⟩
  · exact hs.congr rfl rfl rfl rfl
  · exact he.keeps_inv hs hpc hf

theorem step_keeps_inv (hs : s.Inv) (h : step s = .next t) : t.Inv := by
  rcases step_next h with ⟨-, rfl⟩ | ⟨-, -, rfl⟩ | ⟨-, w, hw, hdec⟩
  · exact hs
  · exact hs.congr rfl rfl rfl rfl
  · have hpc := pc_le_of_fetch_eq_some hw
    have hir : (s.setIr w).Inv := hs.congr rfl rfl rfl rfl
    rcases hdec with ⟨-, rfl⟩ | ⟨i, u, -, hu, hend⟩
    · exact (hir.advance hpc).congr rfl rfl rfl rfl
    · have hinv : u.Inv := exec_keeps_inv hir hpc hu
      rcases hend with ⟨-, rfl⟩ | ⟨-, rfl⟩
      · exact hinv.congr rfl rfl rfl rfl
      · exact hinv

/-! ### Reset and the host's moves -/

theorem reset_inv : State.reset.Inv where
  memWf := Memory.wf_reset
  spBound := by decide
  stackBound := fun j hj => absurd hj (Nat.not_lt_zero j)
  pcBound := by decide

/-- An accepted image fits between address 512 and the end of memory, so reset with it satisfies the invariant. -/
theorem create_inv {image : List Byte} (h : State.create image = .ok t) : t.Inv := by
  unfold State.create at h
  split at h
  · cases h
  · rename_i hlen
    cases h
    have hfits : progBase + image.length ≤ memSize := by
      simp only [progMax, progBase, memSize] at hlen ⊢
      omega
    exact reset_inv.setMem (Memory.wf_writeBytes Memory.wf_reset _ hfits)

/-- Setting a key changes the latches alone. -/
theorem setKey_keeps_inv {k : Nat} (hs : s.Inv) (h : setKey k s = .ok t) : t.Inv := by
  unfold setKey at h
  split at h
  · cases h
    exact hs.congr rfl rfl rfl rfl
  · cases h

theorem hostMove_keeps_inv {m : HostMove} (hs : s.Inv) (h : hostMove m s = .next t) : t.Inv := by
  cases m with
  | create image =>
    simp only [hostMove] at h
    split at h
    · cases h
      exact create_inv ‹_›
    · cases h
      exact hs
  | setKey k =>
    simp only [hostMove] at h
    split at h
    · cases h
      exact setKey_keeps_inv hs ‹_›
    · cases h
      exact hs
  | step => exact step_keeps_inv hs h

/-! ### The obligations -/

/-- Settles O50: a step is a fetch from a `PC` of at most 4094 and the effect of an instruction, which keeps the
invariant. -/
theorem invariantKeptByEveryStep : Obligations.InvariantKeptByEveryStep := fun _ _ => step_keeps_inv

/-- Settles O51, by cases on the move. -/
theorem invariantKeptByEveryHostMove : Obligations.InvariantKeptByEveryHostMove := fun _ _ _ => hostMove_keeps_inv

/-- Settles O49: memory lists nothing, the stack is empty and `PC` is 512. -/
theorem invariantAtReset : Obligations.InvariantAtReset := reset_inv

end Sys2Proof.Machine
end

section
/-! PROOF. A store and the fetch that follows it (R43, D26): what a bulk store and a digit store leave in memory at any
address, and that the step after a store fetches from the memory the store made. -/

namespace Sys2Proof.Machine

variable {s : State} {x : Nibble}

/-! ### The two stores inside memory -/

/-- The memory LD [I], Vx makes (R97). -/
def bulkStored (s : State) (x : Nibble) : Memory := s.mem.writeBytes (baseAddress s) (bulkBytes s x)

/-- The memory LD B, Vx makes (R96). -/
def bcdStored (s : State) (x : Nibble) : Memory := s.mem.writeBytes (baseAddress s) (bcdDigits (s.reg x))

theorem exec_ldMemVx_of_fits (h : s.i.toNat + (x.toNat + 1) ≤ 4096) :
    exec (.ldMemVx x) s = .next (s.setMem (bulkStored s x)).advance := by
  rw [exec, execLdMemVx, withAccess_fits (by exact h), bulkStored]

theorem exec_ldB_of_fits (h : s.i.toNat + 3 ≤ 4096) :
    exec (.ldB x) s = .next (s.setMem (bcdStored s x)).advance := by
  rw [exec, execLdB, withAccess_fits h, bcdStored]

/-- The address of register `j` of a bulk store holds that register. -/
theorem bulkStored_read_stored (hwf : s.mem.wf = true) (hfits : s.i.toNat + (x.toNat + 1) ≤ 4096) {j : Nibble}
    (hj : j.toNat ≤ x.toNat) {a : Nat} (ha : s.i.toNat + j.toNat = a) : (bulkStored s x).read a = s.reg j := by
  have hlt : j.toNat < (bulkBytes s x).length := by rw [bulkBytes_length]; omega
  subst ha
  calc (bulkStored s x).read (s.i.toNat + j.toNat)
      = (bulkBytes s x)[j.toNat] :=
        Memory.read_writeBytes_inside hwf _ _ (by rwa [bulkBytes_length]) _ hlt
    _ = s.reg j := bulkBytes_getElem x j hlt

/-- A bulk store leaves every address outside `I`..`I + x` alone. -/
theorem bulkStored_read_outside {a : Nat} (ha : a < s.i.toNat ∨ s.i.toNat + x.toNat < a) :
    (bulkStored s x).read a = s.mem.read a :=
  Memory.read_writeBytes_outside _ _ _ _ (by rw [bulkBytes_length]; exact ha)

/-- The address of digit `k` of a digit store holds that digit: hundreds, tens, ones. -/
theorem bcdStored_read_stored (hwf : s.mem.wf = true) (hfits : s.i.toNat + 3 ≤ 4096) {k : Nat} (hk : k < 3) {a : Nat}
    (ha : s.i.toNat + k = a) : (bcdStored s x).read a = (bcdDigits (s.reg x))[k]'hk :=
  ha ▸ Memory.read_writeBytes_inside hwf _ (bcdDigits (s.reg x)) hfits k hk

/-- A digit store leaves every address outside `I`..`I + 2` alone. -/
theorem bcdStored_read_outside {a : Nat} (ha : a < s.i.toNat ∨ s.i.toNat + 2 < a) :
    (bcdStored s x).read a = s.mem.read a :=
  Memory.read_writeBytes_outside _ _ _ _ ha

/-- What a digit store leaves at an address it writes, in numbers (R96). -/
theorem bcdStored_read_toNat (hwf : s.mem.wf = true) (hfits : s.i.toNat + 3 ≤ 4096) (a : Nat) :
    (s.i.toNat = a → ((bcdStored s x).read a).toNat = (s.reg x).toNat / 100) ∧
    (s.i.toNat + 1 = a → ((bcdStored s x).read a).toNat = (s.reg x).toNat / 10 % 10) ∧
    (s.i.toNat + 2 = a → ((bcdStored s x).read a).toNat = (s.reg x).toNat % 10) := by
  refine ⟨fun ha => ?_, fun ha => ?_, fun ha => ?_⟩
  · rw [bcdStored_read_stored hwf hfits (k := 0) (by omega) ha]
    simp [bcdDigits]
  · rw [bcdStored_read_stored hwf hfits (k := 1) (by omega) ha]
    simp [bcdDigits]
  · rw [bcdStored_read_stored hwf hfits (k := 2) (by omega) ha]
    simp [bcdDigits]

/-! ### The step that stores and the fetch after it -/

/-- A running step executes the instruction it fetched, with the fetched word in `IR`. -/
theorem step_of_fetched {i : Instr} (hrun : s.status = .running) (hi : fetched s = some i) :
    ∃ w, step s = completeStep (exec i (s.setIr w)) := by
  obtain ⟨w, hw, hdec⟩ := Option.bind_eq_some_iff.mp hi
  exact ⟨w, by simp only [step, hrun, hw, hdec]⟩

/-- Fetch at a `PC` known as a number. -/
theorem fetch_of_pc_eq {p : Nat} (hp : s.pc.toNat = p) (h : p + 1 < 4096) :
    fetch s = some (wordOfBytes (s.mem.read p) (s.mem.read (p + 1))) := by
  subst hp
  exact fetch_of_lt h

/-- After an instruction whose effect is memory `m` and the ordinary advance, fetch reads its two bytes from `m`. -/
theorem step_store_fetch {i : Instr} {m : Memory} (hrun : s.status = .running) (hpc : s.pc.toNat + 3 < 4096)
    (hi : fetched s = some i) (hexec : ∀ w, exec i (s.setIr w) = .next ((s.setIr w).setMem m).advance) :
    ∃ t, step s = .next t ∧ fetch t = some (wordOfBytes (m.read (s.pc.toNat + 2)) (m.read (s.pc.toNat + 3))) := by
  obtain ⟨w, hstep⟩ := step_of_fetched hrun hi
  have hpc2 : (s.pc + 2).toNat = s.pc.toNat + 2 := by rw [BitVec.toNat_add]; simp; omega
  refine ⟨endOfStep ((s.setIr w).setMem m).advance, ?_, ?_⟩
  · rw [hstep, hexec]
    exact completeStep_running hrun
  · exact fetch_of_pc_eq hpc2 (by omega)

/-! ### The obligation -/

/-- Settles O32: the next fetch reads the memory the store made, which holds the stored byte at each stored address and
the old byte at every other. -/
theorem storeSeenByNextFetch : Obligations.StoreSeenByNextFetch := by
  refine fun s x hrun hwf hpc => ⟨fun hi hfits => ?_, fun hi hfits => ?_⟩
  · obtain ⟨t, ht, hfetch⟩ := step_store_fetch (m := bulkStored s x) hrun hpc hi
      fun w => exec_ldMemVx_of_fits (s := s.setIr w) hfits
    exact ⟨t, _, _, ht, hfetch, fun _ hj => bulkStored_read_stored hwf hfits hj,
      fun _ hj => bulkStored_read_stored hwf hfits hj, bulkStored_read_outside, bulkStored_read_outside⟩
  · obtain ⟨t, ht, hfetch⟩ := step_store_fetch (m := bcdStored s x) hrun hpc hi
      fun w => exec_ldB_of_fits (s := s.setIr w) hfits
    obtain ⟨hi100, hi10, hi1⟩ := bcdStored_read_toNat (x := x) hwf hfits (s.pc.toNat + 2)
    obtain ⟨lo100, lo10, lo1⟩ := bcdStored_read_toNat (x := x) hwf hfits (s.pc.toNat + 3)
    exact ⟨t, _, _, ht, hfetch, hi100, hi10, hi1, bcdStored_read_outside, lo100, lo10, lo1, bcdStored_read_outside⟩

end Sys2Proof.Machine
end

section
/-! PROOF. How a step of a running state ends (spec/40_step_cycle.md): completed, with phases K and T after execute, or
fatal, with `STATUS` and at most `IR` written; and which instructions write a timer. -/

namespace Sys2Proof.Machine

variable {s t : State} {i : Instr}

/-! ### What execute leaves for phases K and T -/

/-- No effect ends the run, `DT` is written by LD DT alone and `ST` by LD ST alone (R18, R19, R25). -/
theorem Effect.status_and_timers (he : Effect s t i) :
    t.status = s.status ∧ ((∀ x, i ≠ .ldDtVx x) → t.dt = s.dt) ∧ ((∀ x, i ≠ .ldStVx x) → t.st = s.st) := by
  cases i with
  | cls _ | jp _ | jpV0 _ | ldImm _ _ | addImm _ _ | ldReg _ _ | orReg _ _ | andReg _ _ | xorReg _ _ | addReg _ _
  | sub _ _ | shr _ _ | subn _ _ | shl _ _ | ldI _ | rnd _ _ | drw _ _ _ | ldVxDt _ | addI _ | ldF _ | ldB _
  | ldMemVx _ | ldVxMem _ =>
    cases he
    exact ⟨rfl, fun _ => rfl, fun _ => rfl⟩
  | seImm _ _ | sneImm _ _ | seReg _ _ _ | sneReg _ _ _ | skp _ | sknp _ =>
    cases he
    exact ⟨s.skipIf_status _, fun _ => s.skipIf_dt _, fun _ => s.skipIf_st _⟩
  | call _ =>
    obtain ⟨-, rfl⟩ := he
    exact ⟨rfl, fun _ => rfl, fun _ => rfl⟩
  | ret _ =>
    obtain ⟨-, -, rfl⟩ := he
    exact ⟨rfl, fun _ => rfl, fun _ => rfl⟩
  | ldVxK _ =>
    rcases he with ⟨_, -, rfl⟩ | ⟨-, rfl⟩ <;> exact ⟨rfl, fun _ => rfl, fun _ => rfl⟩
  | ldDtVx x =>
    cases he
    exact ⟨rfl, fun hne => absurd rfl (hne x), fun _ => rfl⟩
  | ldStVx x =>
    cases he
    exact ⟨rfl, fun _ => rfl, fun hne => absurd rfl (hne x)⟩

/-! ### The two ways a step of a running state ends -/

/-- What was fetched, read from the word and its decoding. -/
theorem fetched_of_fetch {w : Word} (hw : fetch s = some w) : fetched s = decodeWord w := by
  rw [fetched, hw, Option.bind_some]

/-- A completed step passed over an unknown word or had the effect of the fetched instruction, and then ran phases K and
T (R55, R60). -/
theorem step_completed (hrun : s.status = .running) (h : step s = .next t) (ht : t.status = .running) :
    ∃ w u, t = endOfStep u ∧ ((fetched s = none ∧ u = unknownOpcode (s.setIr w)) ∨
      ∃ i, fetched s = some i ∧ Effect (s.setIr w) u i) := by
  rcases step_next h with ⟨⟨e, hs⟩, -⟩ | ⟨-, -, rfl⟩ | ⟨-, w, hw, ⟨hdec, rfl⟩ | ⟨i, u, hdec, hu, hend⟩⟩
  · cases hrun.symm.trans hs
  · cases ht
  · exact ⟨w, _, rfl, .inl ⟨(fetched_of_fetch hw).trans hdec, rfl⟩⟩
  · rcases hend with ⟨hurun, rfl⟩ | ⟨⟨e, he⟩, rfl⟩
    · rcases exec_next hu with ⟨e, -, rfl⟩ | ⟨-, heff⟩
      · cases hurun
      · exact ⟨w, u, rfl, .inr ⟨i, (fetched_of_fetch hw).trans hdec, heff⟩⟩
    · cases ht.symm.trans he

/-- A step that ends the run writes `STATUS` and at most `IR` (R65, D6). -/
theorem step_fatal (hrun : s.status = .running) (h : step s = .next t) (ht : t.status ≠ .running) :
    ∃ w e, t = (s.setIr w).setStatus (.halted e) := by
  rcases step_next h with ⟨⟨e, hs⟩, -⟩ | ⟨-, -, rfl⟩ | ⟨-, w, -, ⟨-, rfl⟩ | ⟨i, u, -, hu, hend⟩⟩
  · cases hrun.symm.trans hs
  · exact ⟨s.ir, _, rfl⟩
  · exact absurd hrun ht
  · rcases hend with ⟨hurun, rfl⟩ | ⟨-, rfl⟩
    · exact absurd hurun ht
    · rcases exec_next hu with ⟨e, -, rfl⟩ | ⟨-, heff⟩
      · exact ⟨w, e, rfl⟩
      · obtain ⟨hstatus, -⟩ := heff.status_and_timers
        exact absurd (hstatus.trans hrun) ht

/-! ### The obligation -/

/-- Settles O9: a completed step ends with phases K and T, which count down what the fetched instruction left in the
timers; a fatal one writes neither latches nor timers. -/
theorem keyClearAndTimerTickEndEveryStep : Obligations.KeyClearAndTimerTickEndEveryStep := by
  refine fun s t hrun h => ⟨fun ht => ?_, fun ht => ?_⟩
  · obtain ⟨w, u, rfl, hu⟩ := step_completed hrun h ht
    refine ⟨fun k => by simp, ?_⟩
    simp only [endOfStep_dt, endOfStep_st, countDown_toNat]
    rcases hu with ⟨hnone, rfl⟩ | ⟨i, hi, heff⟩
    · have hno (j : Instr) : fetched s ≠ some j := by simp [hnone]
      exact ⟨fun _ => rfl, fun _ => rfl, fun _ hx => absurd hx (hno _), fun _ hx => absurd hx (hno _)⟩
    · obtain ⟨-, hdt, hst⟩ := heff.status_and_timers
      refine ⟨fun hne => ?_, fun hne => ?_, fun x hx => ?_, fun x hx => ?_⟩
      · rw [hdt fun x hx => hne x (hx ▸ hi), State.setIr_dt]
      · rw [hst fun x hx => hne x (hx ▸ hi), State.setIr_st]
      · cases hi.symm.trans hx
        cases heff
        rfl
      · cases hi.symm.trans hx
        cases heff
        rfl
  · obtain ⟨w, e, rfl⟩ := step_fatal hrun h ht
    exact ⟨rfl, rfl, rfl⟩

end Sys2Proof.Machine
end

section
/-! PROOF. Jumps and skips over registers and immediates (spec/41_control_flow.md, R70, R71, R74 to R77): none of them
has a check, and each writes `PC` alone. -/

namespace Sys2Proof.Machine

variable {s : State}

/-! ### Updates of `PC` alone -/

/-- `setPc` writes `PC` alone. -/
theorem sameExcept_setPc (s : State) (p : Word) : SameExcept [.pc] s (s.setPc p) := by
  intro part hpart
  cases part with
  | pc => exact absurd (List.mem_singleton_self _) hpart
  | regs | mem => exact fun _ => rfl
  | i | sp | stack | dt | st | fb | keys | ir | status | draws => rfl

/-- A skip, taken or not, writes `PC` alone. -/
theorem sameExcept_skipIf (s : State) (c : Bool) : SameExcept [.pc] s (s.skipIf c) := by
  cases c with
  | false => exact sameExcept_setPc s (s.pc + 2)
  | true => exact sameExcept_setPc s (s.pc + 4)

/-! ### What each instruction answers -/

theorem exec_jp (nnn : Addr) : exec (.jp nnn) s = .next (s.setPc (addrOperand nnn)) := rfl

theorem exec_jpV0 (nnn : Addr) : exec (.jpV0 nnn) s = .next (s.setPc (offsetTarget s nnn)) := rfl

theorem exec_seImm (x : Nibble) (kk : Byte) : exec (.seImm x kk) s = .next (s.skipIf (s.reg x == kk)) := rfl

theorem exec_sneImm (x : Nibble) (kk : Byte) : exec (.sneImm x kk) s = .next (s.skipIf (s.reg x != kk)) := rfl

theorem exec_seReg (x y z : Nibble) : exec (.seReg x y z) s = .next (s.skipIf (s.reg x == s.reg y)) := rfl

theorem exec_sneReg (x y z : Nibble) : exec (.sneReg x y z) s = .next (s.skipIf (s.reg x != s.reg y)) := rfl

/-- An instruction that skips on equality continues at `PC + 4` on equal bytes, at `PC + 2` on others (R74, R76). -/
theorem skipIf_beq_spec {o : Out} {a b : Byte} (ho : o = .next (s.skipIf (a == b))) :
    ∃ t, o = .next t ∧ (a = b → t.pc = s.pc + 4) ∧ (a ≠ b → t.pc = s.pc + 2) ∧ SameExcept [.pc] s t := by
  refine ⟨_, ho, fun heq => ?_, fun hne => ?_, sameExcept_skipIf s _⟩
  · simp [heq]
  · simp [hne]

/-- An instruction that skips on difference continues at `PC + 4` on different bytes, at `PC + 2` on equal ones (R75,
R77). -/
theorem skipIf_bne_spec {o : Out} {a b : Byte} (ho : o = .next (s.skipIf (a != b))) :
    ∃ t, o = .next t ∧ (a ≠ b → t.pc = s.pc + 4) ∧ (a = b → t.pc = s.pc + 2) ∧ SameExcept [.pc] s t := by
  refine ⟨_, ho, fun hne => ?_, fun heq => ?_, sameExcept_skipIf s _⟩
  · simp [hne]
  · simp [heq]

/-! ### The obligations -/

/-- Settles O13: the address operand is `nnn` as a number, and `setPc` writes nothing else. -/
theorem jumpSetsPc : Obligations.JumpSetsPc :=
  fun nnn s => ⟨_, exec_jp nnn, addrOperand_toNat nnn, sameExcept_setPc s _⟩

/-- Settles O14: the target of JP V0 is the unbounded sum, and `setPc` writes nothing else. -/
theorem jumpOffsetAddsV0 : Obligations.JumpOffsetAddsV0 :=
  fun nnn s => ⟨_, exec_jpV0 nnn, offsetTarget_toNat nnn, sameExcept_setPc s _⟩

/-- Settles O17: SE skips on equality with `kk`, SNE on difference from it. -/
theorem immediateSkipsCompareRegister : Obligations.ImmediateSkipsCompareRegister :=
  fun x kk _ => ⟨skipIf_beq_spec (exec_seImm x kk), skipIf_bne_spec (exec_sneImm x kk)⟩

/-- Settles O18: SE skips on equal registers, SNE on different ones, and neither reads the ignored nibble. -/
theorem registerSkipsCompareRegisters : Obligations.RegisterSkipsCompareRegisters :=
  fun x y z _ => ⟨skipIf_beq_spec (exec_seReg x y z), skipIf_bne_spec (exec_sneReg x y z)⟩

end Sys2Proof.Machine
end

section
/-! PROOF. Loads of a register without a flag (spec/42_arithmetic.md, R80 to R82): each writes its destination and
`PC`. -/

namespace Sys2Proof.Machine

variable {s : State}

/-! ### Updates of the registers and `PC` -/

/-- New registers and the ordinary advance write nothing else. -/
theorem sameExcept_setRegs_advance (s : State) (val : Vector Byte 16) :
    SameExcept [.regs, .pc] s (s.setRegs val).advance := by
  intro part hpart
  cases part with
  | regs | pc => simp at hpart
  | mem => exact fun _ => rfl
  | i | sp | stack | dt | st | fb | keys | ir | status | draws => rfl

/-- An instruction that ends in `finishReg` writes its result to the destination and moves `PC` on by 2. -/
theorem finishReg_spec {o : Out} {x : Nibble} {r : Byte} (ho : o = finishReg x r s) :
    ∃ t, o = .next t ∧ t.reg x = r ∧ t.pc = s.pc + 2 ∧ (∀ j, j ≠ x → t.reg j = s.reg j) ∧
      SameExcept [.regs, .pc] s t := by
  refine ⟨(s.setReg x r).advance, ho, ?_, rfl, fun j hj => ?_, sameExcept_setRegs_advance s _⟩
  · simp
  · simp [hj]

/-! ### What each instruction answers -/

theorem exec_ldImm (x : Nibble) (kk : Byte) : exec (.ldImm x kk) s = finishReg x kk s := rfl

theorem exec_ldReg (x y : Nibble) : exec (.ldReg x y) s = finishReg x (s.reg y) s := rfl

theorem exec_addImm (x : Nibble) (kk : Byte) : exec (.addImm x kk) s = finishReg x (s.reg x + kk) s := rfl

/-! ### The obligations -/

/-- Settles O19: both loads finish with their operand as the result. -/
theorem loadAndCopyWriteDestination : Obligations.LoadAndCopyWriteDestination :=
  fun x y kk _ => ⟨finishReg_spec (exec_ldImm x kk), finishReg_spec (exec_ldReg x y)⟩

/-- Settles O20: the result is a sum of bytes, which wraps modulo 256, and `finishReg` writes no flag. -/
theorem addImmediateWrapsWithoutFlag : Obligations.AddImmediateWrapsWithoutFlag := by
  intro x kk s
  obtain ⟨t, hexec, hx, hframe⟩ := finishReg_spec (exec_addImm (s := s) x kk)
  exact ⟨t, hexec, by rw [hx, BitVec.toNat_add], hframe⟩

end Sys2Proof.Machine
end

section
/-! PROOF. The load of `I` (spec/43_memory_index.md, R93): it writes `I` and `PC`. -/

namespace Sys2Proof.Machine

variable {s : State}

/-- A new `I` and the ordinary advance write nothing else. -/
theorem sameExcept_setI_advance (s : State) (val : Word) :
    SameExcept [.i, .pc] s (s.setI val).advance := by
  intro part hpart
  cases part with
  | i | pc => simp at hpart
  | regs | mem => exact fun _ => rfl
  | sp | stack | dt | st | fb | keys | ir | status | draws => rfl

theorem exec_ldI (nnn : Addr) : exec (.ldI nnn) s = .next (s.setI (addrOperand nnn)).advance := rfl

/-- Settles O26: `I` takes the zero-extended address operand. -/
theorem loadIndexZeroExtends : Obligations.LoadIndexZeroExtends :=
  fun nnn s => ⟨_, exec_ldI nnn, addrOperand_toNat nnn, State.advance_pc _, sameExcept_setI_advance s _⟩

end Sys2Proof.Machine
end

section
/-! PROOF. The timer instructions in the execute phase (spec/44_timers.md, R100 to R102): each writes its destination
and `PC`. -/

namespace Sys2Proof.Machine

variable {s : State}

/-- A new `DT` and the ordinary advance write nothing else. -/
theorem sameExcept_setDt_advance (s : State) (val : Byte) :
    SameExcept [.dt, .pc] s (s.setDt val).advance := by
  intro part hpart
  cases part with
  | dt | pc => simp at hpart
  | regs | mem => exact fun _ => rfl
  | i | sp | stack | st | fb | keys | ir | status | draws => rfl

/-- A new `ST` and the ordinary advance write nothing else. -/
theorem sameExcept_setSt_advance (s : State) (val : Byte) :
    SameExcept [.st, .pc] s (s.setSt val).advance := by
  intro part hpart
  cases part with
  | st | pc => simp at hpart
  | regs | mem => exact fun _ => rfl
  | i | sp | stack | dt | fb | keys | ir | status | draws => rfl

/-! ### What each instruction answers -/

theorem exec_ldVxDt (x : Nibble) : exec (.ldVxDt x) s = finishReg x s.dt s := rfl

theorem exec_ldDtVx (x : Nibble) : exec (.ldDtVx x) s = .next (s.setDt (s.reg x)).advance := rfl

theorem exec_ldStVx (x : Nibble) : exec (.ldStVx x) s = .next (s.setSt (s.reg x)).advance := rfl

/-! ### The obligation -/

/-- Settles O33: the read finishes with `DT` as its result, and each write sets one timer before the advance. -/
theorem timerLoadsMoveOneByte : Obligations.TimerLoadsMoveOneByte := fun x s =>
  ⟨finishReg_spec (exec_ldVxDt x),
    ⟨_, exec_ldDtVx x, State.setDt_dt s _, State.advance_pc _, sameExcept_setDt_advance s _⟩,
    ⟨_, exec_ldStVx x, State.setSt_st s _, State.advance_pc _, sameExcept_setSt_advance s _⟩⟩

end Sys2Proof.Machine
end

section
/-! PROOF. The key wait in the execute phase (spec/45_input.md, R107): it reads the latch through `lowestKey` alone,
and without a key it answers the state it was given. -/

namespace Sys2Proof.Machine

variable {s : State}

/-! ### What the instruction answers -/

theorem exec_ldVxK_of_lowestKey_some {k : Nat} (x : Nibble) (hk : lowestKey s = some k) :
    exec (.ldVxK x) s = finishReg x (BitVec.ofNat 8 k) s := by
  simp only [exec, execLdVxK, hk, finishReg]

theorem exec_ldVxK_of_lowestKey_none (x : Nibble) (hnone : lowestKey s = none) : exec (.ldVxK x) s = .next s := by
  simp only [exec, execLdVxK, hnone]

/-- A key number is below 16, so that a byte holds it whole. -/
theorem keyByte_toNat (k : Fin 16) : (BitVec.ofNat 8 k.val).toNat = k.val := by
  rw [BitVec.toNat_ofNat, Nat.mod_eq_of_lt (by omega)]

/-! ### The obligation -/

/-- Settles O35: the scan ends at the lowest latched key, whose number is the result `finishReg` writes; a scan that
finds no key leaves the state as it is. -/
theorem keyWaitTakesLowestKey : Obligations.KeyWaitTakesLowestKey := by
  refine fun x s => ⟨fun k hk hlow => ?_, fun hnone => exec_ldVxK_of_lowestKey_none x (lowestKey_eq_none hnone)⟩
  obtain ⟨t, hexec, hx, hframe⟩ := finishReg_spec (exec_ldVxK_of_lowestKey_some x (lowestKey_eq_some k hk hlow))
  exact ⟨t, hexec, by rw [hx, keyByte_toNat], hframe⟩

end Sys2Proof.Machine
end

section
/-! PROOF. The display instructions (spec/46_display.md): CLS writes the framebuffer and `PC` alone (R110), and the flag
of DRW reports a pixel that was on before it and is off after it (R113). -/

namespace Sys2Proof.Machine

variable {s : State} {x y n : Nibble}

/-! ### CLS -/

/-- A new framebuffer and the ordinary advance write nothing else. -/
theorem sameExcept_setFb_advance (s : State) (val : Framebuffer) :
    SameExcept [.fb, .pc] s (s.setFb val).advance := by
  intro part hpart
  cases part with
  | fb | pc => simp at hpart
  | regs | mem => exact fun _ => rfl
  | i | sp | stack | dt | st | keys | ir | status | draws => rfl

theorem exec_cls (z : Nibble) : exec (.cls z) s = .next (s.setFb Framebuffer.blank).advance := rfl

/-! ### DRW inside memory -/

theorem exec_drw_of_fits (h : s.i.toNat + n.toNat ≤ 4096) :
    exec (.drw x y n) s =
      .next ((s.setFb (drawSprite x y n s).1).setReg vf (collisionFlag (drawSprite x y n s).2)).advance := by
  rw [exec, execDrw, withAccess_fits h]

/-- The collision mark of a sprite: the sprite reaches a pixel exactly when it toggles it, so that a pixel it reaches
while on is a pixel it turns off. -/
theorem collision_drawSprite :
    (drawSprite x y n s).2 = true ↔ ∃ px py,
      Framebuffer.pixel s.fb px py = true ∧ Framebuffer.pixel (drawSprite x y n s).1 px py = false := by
  have hheight : (spriteBytes s n).length ≤ 15 := by
    rw [spriteBytes, Memory.length_readBytes]
    omega
  obtain ⟨htoggled, hcollision⟩ :=
    drawRows_spec (spriteBytes s n) (s.reg x).toNat (s.reg y).toNat hheight (s.fb, false)
  simp only [drawSprite, hcollision, Bool.false_eq_true, false_or]
  refine exists_congr fun px => exists_congr fun py => ?_
  rw [← htoggled, and_comm]
  exact and_congr_right fun hon => by rw [hon, ne_eq, Bool.not_eq_true]

/-- A collision flag is 0 or 1, and 1 when there was a collision. -/
theorem collisionFlag_spec (c : Bool) :
    (collisionFlag c = 0 ∨ collisionFlag c = 1) ∧ (collisionFlag c = 1 ↔ c = true) := by
  cases c <;> decide

/-- The flag register after it is written and `PC` moved on. -/
theorem advance_setReg_vf_reg (s : State) (val : Byte) : (s.setReg vf val).advance.reg 15 = val := by
  simp [vf]

/-! ### The obligations -/

/-- Settles O38: CLS answers the blank framebuffer and the advance. -/
theorem clearScreenZeroesEveryPixel : Obligations.ClearScreenZeroesEveryPixel :=
  fun z s => ⟨_, exec_cls z, Framebuffer.pixel_blank, State.advance_pc _, sameExcept_setFb_advance s _⟩

/-- Settles O40: `VF` reads the collision mark of the sprite drawn, which tells of a pixel turned off. -/
theorem collisionIffPixelTurnedOff : Obligations.CollisionIffPixelTurnedOff := by
  intro x y n s hfits
  refine ⟨_, exec_drw_of_fits hfits, ?_⟩
  obtain ⟨hbit, hone⟩ := collisionFlag_spec (drawSprite x y n s).2
  rw [advance_setReg_vf_reg]
  exact ⟨hbit, hone.trans collision_drawSprite⟩

end Sys2Proof.Machine
end

section
/-! PROOF. The decoder and the encoder are inverse to each other (spec/30_encoding.md): every instruction is decoded
from its own word, every word that decodes is the word of its instruction, and a row of the opcode map is selected by
its mask and match. -/

namespace Sys2Proof

variable {w : Word} {i : Instr}

/-! ### Decoding the word of an instruction -/

/-- The dispatch keys of an assembled word are those of its instruction, and so are its operand fields. -/
theorem decodeWord_encode (i : Instr) : decodeWord (encode i) = some i := by
  cases i with
  | cls _ | ret _ => simp [encode, decodeWord, decodeGroup0]
  | ldReg _ _ | orReg _ _ | andReg _ _ | xorReg _ _ | addReg _ _ | sub _ _ | shr _ _ | subn _ _ | shl _ _ =>
    simp [encode, decodeWord, decodeGroup8]
  | skp _ | sknp _ => simp [encode, decodeWord, decodeGroupE]
  | ldVxDt _ | ldVxK _ | ldDtVx _ | ldStVx _ | addI _ | ldF _ | ldB _ | ldMemVx _ | ldVxMem _ =>
    simp [encode, decodeWord, decodeGroupF]
  | jp _ | call _ | seImm _ _ | sneImm _ _ | seReg _ _ _ | ldImm _ _ | addImm _ _ | sneReg _ _ _ | ldI _ | jpV0 _
  | rnd _ _ | drw _ _ _ => simp [encode, decodeWord]

/-- Two bytes whose word decodes are read as one instruction, and the bytes after them are left. -/
theorem decode_of_decodeWord {hi lo : Byte} (rest : List Byte) (h : decodeWord (wordOfBytes hi lo) = some i) :
    decode (hi :: lo :: rest) = .ok (i, rest) := by
  simp [decode, h]

theorem decode_encodeBytes (i : Instr) (rest : List Byte) : decode (encodeBytes i ++ rest) = .ok (i, rest) :=
  decode_of_decodeWord rest (by rw [wordOfBytes_bytes, decodeWord_encode])

/-! ### The word a decoded instruction comes from -/

/-- A word with high nibble `op` and low byte `k`, from its `x` field. -/
theorem encX8_of_keys {op : Nibble} {k : Byte} (hop : opField w = op) (hk : kkField w = k) :
    encX8 op (xField w) k = w := by
  rw [← hop, ← hk, encX8_fields]

/-- A word with high nibble `op` and low nibble `k`, from its `x` and `y` fields. -/
theorem encXyn_of_keys {op k : Nibble} (hop : opField w = op) (hk : nField w = k) :
    encXyn op (xField w) (yField w) k = w := by
  rw [← hop, ← hk, encXyn_fields]

/-- A word with high nibble `op`, from its address field. -/
theorem encNnn_of_key {op : Nibble} (hop : opField w = op) : encNnn op (nnnField w) = w := by
  rw [← hop, encNnn_fields]

theorem encode_of_decodeGroup0 (hop : opField w = 0x0) (h : decodeGroup0 w = some i) : encode i = w := by
  unfold decodeGroup0 at h
  split_ifs at h with hk hk
  all_goals
    cases h
    exact encX8_of_keys hop hk

theorem encode_of_decodeGroup8 (hop : opField w = 0x8) (h : decodeGroup8 w = some i) : encode i = w := by
  unfold decodeGroup8 at h
  split_ifs at h with hk hk hk hk hk hk hk hk hk
  all_goals
    cases h
    exact encXyn_of_keys hop hk

theorem encode_of_decodeGroupE (hop : opField w = 0xE) (h : decodeGroupE w = some i) : encode i = w := by
  unfold decodeGroupE at h
  split_ifs at h with hk hk
  all_goals
    cases h
    exact encX8_of_keys hop hk

theorem encode_of_decodeGroupF (hop : opField w = 0xF) (h : decodeGroupF w = some i) : encode i = w := by
  unfold decodeGroupF at h
  split_ifs at h with hk hk hk hk hk hk hk hk hk
  all_goals
    cases h
    exact encX8_of_keys hop hk

/-- By the high nibble: the eleven one-operation groups keep every field of the word, the five others their operand
fields beside the second key. -/
theorem encode_of_decodeWord (h : decodeWord w = some i) : encode i = w := by
  rcases nibble_cases (opField w) with hop | hop | hop | hop | hop | hop | hop | hop | hop | hop | hop | hop | hop |
    hop | hop | hop <;> simp [decodeWord, hop] at h
  · exact encode_of_decodeGroup0 hop h
  · exact h ▸ encNnn_of_key hop
  · exact h ▸ encNnn_of_key hop
  · exact h ▸ encX8_of_keys hop rfl
  · exact h ▸ encX8_of_keys hop rfl
  · exact h ▸ encXyn_of_keys hop rfl
  · exact h ▸ encX8_of_keys hop rfl
  · exact h ▸ encX8_of_keys hop rfl
  · exact encode_of_decodeGroup8 hop h
  · exact h ▸ encXyn_of_keys hop rfl
  · exact h ▸ encNnn_of_key hop
  · exact h ▸ encNnn_of_key hop
  · exact h ▸ encX8_of_keys hop rfl
  · exact h ▸ encXyn_of_keys hop rfl
  · exact encode_of_decodeGroupE hop h
  · exact encode_of_decodeGroupF hop h

/-! ### The rows of the opcode map -/

/-- Every instruction's word lies in its own row. -/
theorem encode_and_rowMask (i : Instr) : encode i &&& rowMask i = rowMatch i := by
  cases i with
  | cls z => exact Laws.TableRow.cls z
  | ret z => exact Laws.TableRow.ret z
  | jp nnn => exact Laws.TableRow.jp nnn
  | call nnn => exact Laws.TableRow.call nnn
  | seImm x kk => exact Laws.TableRow.seImm x kk
  | sneImm x kk => exact Laws.TableRow.sneImm x kk
  | seReg x y z => exact Laws.TableRow.seReg x y z
  | ldImm x kk => exact Laws.TableRow.ldImm x kk
  | addImm x kk => exact Laws.TableRow.addImm x kk
  | ldReg x y => exact Laws.TableRow.ldReg x y
  | orReg x y => exact Laws.TableRow.orReg x y
  | andReg x y => exact Laws.TableRow.andReg x y
  | xorReg x y => exact Laws.TableRow.xorReg x y
  | addReg x y => exact Laws.TableRow.addReg x y
  | sub x y => exact Laws.TableRow.sub x y
  | shr x y => exact Laws.TableRow.shr x y
  | subn x y => exact Laws.TableRow.subn x y
  | shl x y => exact Laws.TableRow.shl x y
  | sneReg x y z => exact Laws.TableRow.sneReg x y z
  | ldI nnn => exact Laws.TableRow.ldI nnn
  | jpV0 nnn => exact Laws.TableRow.jpV0 nnn
  | rnd x kk => exact Laws.TableRow.rnd x kk
  | drw x y n => exact Laws.TableRow.drw x y n
  | skp x => exact Laws.TableRow.skp x
  | sknp x => exact Laws.TableRow.sknp x
  | ldVxDt x => exact Laws.TableRow.ldVxDt x
  | ldVxK x => exact Laws.TableRow.ldVxK x
  | ldDtVx x => exact Laws.TableRow.ldDtVx x
  | ldStVx x => exact Laws.TableRow.ldStVx x
  | addI x => exact Laws.TableRow.addI x
  | ldF x => exact Laws.TableRow.ldF x
  | ldB x => exact Laws.TableRow.ldB x
  | ldMemVx x => exact Laws.TableRow.ldMemVx x
  | ldVxMem x => exact Laws.TableRow.ldVxMem x

/-- The instruction of the same row as `i` with the operand fields of `w`. -/
def withOperandsOf (w : Word) : Instr → Instr
  | .cls _ => .cls (xField w)
  | .ret _ => .ret (xField w)
  | .jp _ => .jp (nnnField w)
  | .call _ => .call (nnnField w)
  | .seImm _ _ => .seImm (xField w) (kkField w)
  | .sneImm _ _ => .sneImm (xField w) (kkField w)
  | .seReg _ _ _ => .seReg (xField w) (yField w) (nField w)
  | .ldImm _ _ => .ldImm (xField w) (kkField w)
  | .addImm _ _ => .addImm (xField w) (kkField w)
  | .ldReg _ _ => .ldReg (xField w) (yField w)
  | .orReg _ _ => .orReg (xField w) (yField w)
  | .andReg _ _ => .andReg (xField w) (yField w)
  | .xorReg _ _ => .xorReg (xField w) (yField w)
  | .addReg _ _ => .addReg (xField w) (yField w)
  | .sub _ _ => .sub (xField w) (yField w)
  | .shr _ _ => .shr (xField w) (yField w)
  | .subn _ _ => .subn (xField w) (yField w)
  | .shl _ _ => .shl (xField w) (yField w)
  | .sneReg _ _ _ => .sneReg (xField w) (yField w) (nField w)
  | .ldI _ => .ldI (nnnField w)
  | .jpV0 _ => .jpV0 (nnnField w)
  | .rnd _ _ => .rnd (xField w) (kkField w)
  | .drw _ _ _ => .drw (xField w) (yField w) (nField w)
  | .skp _ => .skp (xField w)
  | .sknp _ => .sknp (xField w)
  | .ldVxDt _ => .ldVxDt (xField w)
  | .ldVxK _ => .ldVxK (xField w)
  | .ldDtVx _ => .ldDtVx (xField w)
  | .ldStVx _ => .ldStVx (xField w)
  | .addI _ => .addI (xField w)
  | .ldF _ => .ldF (xField w)
  | .ldB _ => .ldB (xField w)
  | .ldMemVx _ => .ldMemVx (xField w)
  | .ldVxMem _ => .ldVxMem (xField w)

theorem rowMask_withOperandsOf (w : Word) (i : Instr) : rowMask (withOperandsOf w i) = rowMask i := by
  cases i <;> rfl

theorem rowMatch_withOperandsOf (w : Word) (i : Instr) : rowMatch (withOperandsOf w i) = rowMatch i := by
  cases i <;> rfl

/-- The mask of a one-operation group keeps the high nibble. -/
theorem opField_of_and_F000 {r : Word} (h : w &&& 0xF000#16 = r) : opField w = opField r := by
  rw [← h, and_F000, opField_encNnn]

/-- The mask of a low-byte key keeps the high nibble and the low byte. -/
theorem keys_of_and_F0FF {r : Word} (h : w &&& 0xF0FF#16 = r) : opField w = opField r ∧ kkField w = kkField r := by
  rw [← h, and_F0FF, opField_encX8, kkField_encX8]
  exact ⟨rfl, rfl⟩

/-- The mask of a low-nibble key keeps the high nibble and the low nibble. -/
theorem keys_of_and_F00F {r : Word} (h : w &&& 0xF00F#16 = r) : opField w = opField r ∧ nField w = nField r := by
  rw [← h, and_F00F, opField_encXyn, nField_encXyn]
  exact ⟨rfl, rfl⟩

/-- A word of the row of `i` is the word of that row's instruction with the word's own operands. -/
theorem encode_withOperandsOf (h : w &&& rowMask i = rowMatch i) : encode (withOperandsOf w i) = w := by
  cases i with
  | cls _ | ret _ | skp _ | sknp _ | ldVxDt _ | ldVxK _ | ldDtVx _ | ldStVx _ | addI _ | ldF _ | ldB _ | ldMemVx _
  | ldVxMem _ =>
    simp only [rowMask, rowMatch] at h
    obtain ⟨hop, hk⟩ := keys_of_and_F0FF h
    exact encX8_of_keys (hop.trans (by decide)) (hk.trans (by decide))
  | ldReg _ _ | orReg _ _ | andReg _ _ | xorReg _ _ | addReg _ _ | sub _ _ | shr _ _ | subn _ _ | shl _ _ =>
    simp only [rowMask, rowMatch] at h
    obtain ⟨hop, hk⟩ := keys_of_and_F00F h
    exact encXyn_of_keys (hop.trans (by decide)) (hk.trans (by decide))
  | jp _ | call _ | ldI _ | jpV0 _ =>
    simp only [rowMask, rowMatch] at h
    exact encNnn_of_key ((opField_of_and_F000 h).trans (by decide))
  | seImm _ _ | sneImm _ _ | ldImm _ _ | addImm _ _ | rnd _ _ =>
    simp only [rowMask, rowMatch] at h
    exact encX8_of_keys ((opField_of_and_F000 h).trans (by decide)) rfl
  | seReg _ _ _ | sneReg _ _ _ | drw _ _ _ =>
    simp only [rowMask, rowMatch] at h
    exact encXyn_of_keys ((opField_of_and_F000 h).trans (by decide)) rfl

/-! ### The unknown words -/

theorem decodeGroup0_eq_none : decodeGroup0 w = none ↔ kkField w ∉ [0xE0, 0xEE] := by
  simp [decodeGroup0, ite_eq_iff]

theorem decodeGroup8_eq_none :
    decodeGroup8 w = none ↔ nField w ∉ [0x0, 0x1, 0x2, 0x3, 0x4, 0x5, 0x6, 0x7, 0xE] := by
  simp [decodeGroup8, ite_eq_iff]

theorem decodeGroupE_eq_none : decodeGroupE w = none ↔ kkField w ∉ [0x9E, 0xA1] := by
  simp [decodeGroupE, ite_eq_iff]

theorem decodeGroupF_eq_none :
    decodeGroupF w = none ↔ kkField w ∉ [0x07, 0x0A, 0x15, 0x18, 0x1E, 0x29, 0x33, 0x55, 0x65] := by
  simp [decodeGroupF, ite_eq_iff]

/-- Only a group with a second key has unknown words: those whose key names no operation of the group. -/
theorem decodeWord_eq_none : decodeWord w = none ↔
    (opField w = 0x0 ∧ decodeGroup0 w = none) ∨ (opField w = 0x8 ∧ decodeGroup8 w = none) ∨
    (opField w = 0xE ∧ decodeGroupE w = none) ∨ (opField w = 0xF ∧ decodeGroupF w = none) := by
  rcases nibble_cases (opField w) with hop | hop | hop | hop | hop | hop | hop | hop | hop | hop | hop | hop | hop |
    hop | hop | hop <;> simp [decodeWord, hop]

/-! ### The obligations -/

/-- Settles O1: the two bytes make the instruction's word again, which decodes to it. -/
theorem decodeOfEncodeIsIdentity : Obligations.DecodeOfEncodeIsIdentity := decode_encodeBytes

/-- Settles O2, by the branches of the decoder. -/
theorem encodeOfDecodeIsIdentity : Obligations.EncodeOfDecodeIsIdentity := fun _ _ => encode_of_decodeWord

/-- Settles O3: a decoded word is its instruction's word, which lies in the row; a word of the row decodes to the row's
instruction with the word's operands. -/
theorem rowSelectedByMaskAndMatch : Obligations.RowSelectedByMaskAndMatch := by
  refine fun i w => ⟨?_, fun h => ?_⟩
  · rintro ⟨j, hdec, hmask, hmatch⟩
    rw [← hmask, ← hmatch, ← encode_of_decodeWord hdec, encode_and_rowMask]
  · refine ⟨withOperandsOf w i, ?_, rowMask_withOperandsOf w i, rowMatch_withOperandsOf w i⟩
    have hdec := decodeWord_encode (withOperandsOf w i)
    rwa [encode_withOperandsOf h] at hdec

/-- Settles O4: the four groups with a second key, their keys read as numbers. -/
theorem unknownWordsAreExactlyFourSets : Obligations.UnknownWordsAreExactlyFourSets := by
  intro w
  rw [decodeWord_eq_none, decodeGroup0_eq_none, decodeGroup8_eq_none, decodeGroupE_eq_none, decodeGroupF_eq_none]
  simp only [BitVec.toNat_eq, opField_toNat, kkField_toNat, nField_toNat, List.mem_cons, List.not_mem_nil, or_false]
  simp
  omega

/-- Settles O5: each sample is the encoding of its instruction; the bytes 00 00 have no second key of group 0x0. -/
theorem sampleWordsDecode : Obligations.SampleWordsDecode :=
  ⟨decode_encodeBytes (.jp 0x234) [], decode_encodeBytes (.addReg 1 2) [], decode_encodeBytes (.ldMemVx 2) [],
    decode_encodeBytes (.ldVxDt 3) [], decode_encodeBytes (.sknp 2) [], decode_encodeBytes (.drw 1 2 5) [],
    decode_encodeBytes (.rnd 3 0x0F) [], rfl⟩

end Sys2Proof
end

section
/-! PROOF. `exec` and `Effect` say the same: an instruction whose check fails raises its error, any other answers its
effect. And which pieces of state the effect of each instruction writes (R8: nothing else changes). -/

namespace Sys2Proof.Machine

variable {s t : State} {i : Instr}

/-! ### The stack count and the checks -/

/-- A push on a stack that is not full counts one more entry. -/
theorem sp_add_one_toNat (h : s.sp.toNat < 16) : (s.sp + 1).toNat = s.sp.toNat + 1 := by
  bv_omega

/-- A pop from a stack that is not empty counts one entry less. -/
theorem sp_sub_one_toNat (h : s.sp.toNat ≠ 0) : (s.sp - 1).toNat = s.sp.toNat - 1 := by
  bv_omega

/-- A stack that is not empty has a positive count. -/
theorem sp_toNat_ne_zero (h : s.sp ≠ 0) : s.sp.toNat ≠ 0 :=
  fun e => h (BitVec.eq_of_toNat_eq e)

/-- A check that raises when `c` holds and raised nothing: `c` does not hold. -/
theorem not_of_ite_some_eq_none {c : Prop} [Decidable c] {e : FatalError} (h : (if c then some e else none) = none) :
    ¬ c := by
  simpa using h

/-- A check that raises when `c` holds and raised an error: `c` holds and the error is its own. -/
theorem of_ite_some_eq_some {c : Prop} [Decidable c] {e e' : FatalError}
    (h : (if c then some e else none) = some e') : c ∧ e = e' := by
  simpa using h

/-! ### What execute answers, from the table of errors and the effect -/

/-- An instruction whose check fails by the table of R120 raises that error. -/
theorem exec_of_fatal {e : FatalError} (hf : fatalOf i s = some e) : exec i s = raise e s := by
  cases i with
  | call nnn =>
    obtain ⟨hsp, rfl⟩ := of_ite_some_eq_some hf
    exact if_pos (BitVec.eq_of_toNat_eq hsp)
  | ret _ =>
    obtain ⟨hsp, rfl⟩ := of_ite_some_eq_some hf
    exact if_pos (BitVec.eq_of_toNat_eq hsp)
  | ldB _ | ldMemVx _ | ldVxMem _ | drw _ _ _ =>
    obtain ⟨hout, rfl⟩ := of_ite_some_eq_some hf
    simp only [exec, execLdB, execLdMemVx, execLdVxMem, execDrw, bulkCount]
    exact withAccess_raises hout
  | skp _ | sknp _ =>
    obtain ⟨hkey, rfl⟩ := of_ite_some_eq_some hf
    simp only [exec, execSkp, execSknp]
    exact withKey_of_ge hkey
  | cls _ | jp _ | seImm _ _ | sneImm _ _ | seReg _ _ _ | ldImm _ _ | addImm _ _ | ldReg _ _ | orReg _ _ | andReg _ _
  | xorReg _ _ | addReg _ _ | sub _ _ | shr _ _ | subn _ _ | shl _ _ | sneReg _ _ _ | ldI _ | jpV0 _ | rnd _ _
  | ldVxDt _ | ldVxK _ | ldDtVx _ | ldStVx _ | addI _ | ldF _ => cases hf

/-- An instruction whose check fails halts the run with nothing but `STATUS` written. -/
theorem exec_haltsWith {e : FatalError} (hf : fatalOf i s = some e) : HaltsWith (exec i s) s e :=
  exec_of_fatal hf ▸ haltsWith_raise s e

theorem exec_call_of_lt (nnn : Addr) (h : s.sp.toNat < 16) :
    exec (.call nnn) s = .next ((s.pushed s.pc h).setPc (addrOperand nnn)) := by
  rw [exec, execCall, pushThen_fits h]

theorem exec_ret_of_ne_zero (z : Nibble) (h0 : s.sp ≠ 0) (h : s.sp.toNat - 1 < 16) :
    exec (.ret z) s = .next (s.popped.setPc (s.stack[s.sp.toNat - 1] + params.retAdjust)) := by
  rw [exec, execRet, popThen_fits h0 h]

theorem exec_ldVxMem_of_fits {x : Nibble} (h : s.i.toNat + (x.toNat + 1) ≤ 4096) :
    exec (.ldVxMem x) s =
      .next (s.setRegs (loadRegs (s.mem.readBytes (baseAddress s) (bulkCount x)) 0 s.v)).advance := by
  rw [exec, execLdVxMem, withAccess_fits (by exact h)]

theorem exec_skp_of_lt {x : Nibble} (h : (s.reg x).toNat < 16) :
    exec (.skp x) s = .next (s.skipIf (keyLatched s (s.reg x).toNat)) := by
  rw [exec, execSkp, withKey_of_lt h]

theorem exec_sknp_of_lt {x : Nibble} (h : (s.reg x).toNat < 16) :
    exec (.sknp x) s = .next (s.skipIf (!keyLatched s (s.reg x).toNat)) := by
  rw [exec, execSknp, withKey_of_lt h]

/-- An instruction that raises nothing answers the state its effect gives. -/
theorem exec_of_effect (hf : fatalOf i s = none) (he : Effect s t i) : exec i s = .next t := by
  cases i with
  | call nnn =>
    obtain ⟨hsp, rfl⟩ := he
    exact exec_call_of_lt nnn hsp
  | ret z =>
    obtain ⟨h0, hsp, rfl⟩ := he
    exact exec_ret_of_ne_zero z h0 hsp
  | ldB _ =>
    cases he
    exact exec_ldB_of_fits (Nat.le_of_not_lt (not_of_ite_some_eq_none hf))
  | ldMemVx _ =>
    cases he
    exact exec_ldMemVx_of_fits (Nat.le_of_not_lt (not_of_ite_some_eq_none hf))
  | ldVxMem _ =>
    cases he
    exact exec_ldVxMem_of_fits (Nat.le_of_not_lt (not_of_ite_some_eq_none hf))
  | drw _ _ _ =>
    cases he
    exact exec_drw_of_fits (Nat.le_of_not_lt (not_of_ite_some_eq_none hf))
  | skp _ =>
    cases he
    exact exec_skp_of_lt (Nat.lt_of_not_le (not_of_ite_some_eq_none hf))
  | sknp _ =>
    cases he
    exact exec_sknp_of_lt (Nat.lt_of_not_le (not_of_ite_some_eq_none hf))
  | ldVxK x =>
    rcases he with ⟨k, hk, rfl⟩ | ⟨hnone, rfl⟩
    · exact exec_ldVxK_of_lowestKey_some x hk
    · exact exec_ldVxK_of_lowestKey_none x hnone
  | cls _ | jp _ | seImm _ _ | sneImm _ _ | seReg _ _ _ | ldImm _ _ | addImm _ _ | ldReg _ _ | orReg _ _ | andReg _ _
  | xorReg _ _ | addReg _ _ | sub _ _ | shr _ _ | subn _ _ | shl _ _ | sneReg _ _ _ | ldI _ | jpV0 _ | rnd _ _
  | ldVxDt _ | ldDtVx _ | ldStVx _ | addI _ | ldF _ =>
    cases he
    rfl

/-- With a legal `SP` every instruction that raises nothing has an effect. -/
theorem exists_effect (hsp : s.sp.toNat ≤ 16) (hf : fatalOf i s = none) : ∃ t, Effect s t i := by
  cases i with
  | call _ =>
    have hne := not_of_ite_some_eq_none hf
    exact ⟨_, by omega, rfl⟩
  | ret _ =>
    have hne := not_of_ite_some_eq_none hf
    exact ⟨_, fun h0 => hne (congrArg BitVec.toNat h0), by omega, rfl⟩
  | ldVxK _ =>
    cases hk : lowestKey s with
    | none => exact ⟨s, .inr ⟨hk, rfl⟩⟩
    | some k => exact ⟨_, .inl ⟨k, hk, rfl⟩⟩
  | cls _ | jp _ | seImm _ _ | sneImm _ _ | seReg _ _ _ | ldImm _ _ | addImm _ _ | ldReg _ _ | orReg _ _ | andReg _ _
  | xorReg _ _ | addReg _ _ | sub _ _ | shr _ _ | subn _ _ | shl _ _ | sneReg _ _ _ | ldI _ | jpV0 _ | rnd _ _
  | drw _ _ _ | skp _ | sknp _ | ldVxDt _ | ldDtVx _ | ldStVx _ | addI _ | ldF _ | ldB _ | ldMemVx _ | ldVxMem _ =>
    exact ⟨_, rfl⟩

/-- With a legal `SP` every instruction answers a next state. -/
theorem exec_answers (hsp : s.sp.toNat ≤ 16) (i : Instr) : ∃ t, exec i s = .next t := by
  cases hf : fatalOf i s with
  | some e => exact ⟨_, exec_of_fatal hf⟩
  | none =>
    obtain ⟨t, he⟩ := exists_effect hsp hf
    exact ⟨t, exec_of_effect hf he⟩

/-! ### The pieces of state an effect writes -/

/-- New memory and the ordinary advance write nothing else. -/
theorem sameExcept_setMem_advance (s : State) (m : Memory) : SameExcept [.mem, .pc] s (s.setMem m).advance := by
  intro part hpart
  cases part with
  | mem | pc => simp at hpart
  | regs => exact fun _ => rfl
  | i | sp | stack | dt | st | fb | keys | ir | status | draws => rfl

/-- One more draw, new registers and the ordinary advance write nothing else. -/
theorem sameExcept_drawn_setRegs_advance (s : State) (val : Vector Byte 16) :
    SameExcept [.regs, .pc, .draws] s (s.drawn.setRegs val).advance := by
  intro part hpart
  cases part with
  | regs | pc | draws => simp at hpart
  | mem => exact fun _ => rfl
  | i | sp | stack | dt | st | fb | keys | ir | status => rfl

/-- A new framebuffer, new registers and the ordinary advance write nothing else. -/
theorem sameExcept_setFb_setRegs_advance (s : State) (fb : Framebuffer) (val : Vector Byte 16) :
    SameExcept [.regs, .fb, .pc] s ((s.setFb fb).setRegs val).advance := by
  intro part hpart
  cases part with
  | regs | fb | pc => simp at hpart
  | mem => exact fun _ => rfl
  | i | sp | stack | dt | st | keys | ir | status | draws => rfl

/-- A push and a jump write nothing else. -/
theorem sameExcept_pushed_setPc (s : State) (val p : Word) (h : s.sp.toNat < 16) :
    SameExcept [.pc, .sp, .stack] s ((s.pushed val h).setPc p) := by
  intro part hpart
  cases part with
  | pc | sp | stack => simp at hpart
  | regs | mem => exact fun _ => rfl
  | i | dt | st | fb | keys | ir | status | draws => rfl

/-- A pop and a jump write nothing else, the popped slot included. -/
theorem sameExcept_popped_setPc (s : State) (p : Word) : SameExcept [.pc, .sp] s (s.popped.setPc p) := by
  intro part hpart
  cases part with
  | pc | sp => simp at hpart
  | regs | mem => exact fun _ => rfl
  | i | stack | dt | st | fb | keys | ir | status | draws => rfl

/-- A state holds what it holds. -/
theorem sameExcept_refl (ps : List Part) (s : State) : SameExcept ps s s := by
  intro part _
  cases part with
  | regs | mem => exact fun _ => rfl
  | i | pc | sp | stack | dt | st | fb | keys | ir | status | draws => rfl

/-- The pieces of state the rule of an instruction names as written. -/
def writtenParts : Instr → List Part
  | .jp _ | .jpV0 _ | .seImm _ _ | .sneImm _ _ | .seReg _ _ _ | .sneReg _ _ _ | .skp _ | .sknp _ => [.pc]
  | .call _ => [.pc, .sp, .stack]
  | .ret _ => [.pc, .sp]
  | .ldImm _ _ | .addImm _ _ | .ldReg _ _ | .orReg _ _ | .andReg _ _ | .xorReg _ _ | .addReg _ _ | .sub _ _ | .shr _ _
  | .subn _ _ | .shl _ _ | .ldVxDt _ | .ldVxK _ | .ldVxMem _ => [.regs, .pc]
  | .rnd _ _ => [.regs, .pc, .draws]
  | .drw _ _ _ => [.regs, .fb, .pc]
  | .cls _ => [.fb, .pc]
  | .ldI _ | .addI _ | .ldF _ => [.i, .pc]
  | .ldDtVx _ => [.dt, .pc]
  | .ldStVx _ => [.st, .pc]
  | .ldB _ | .ldMemVx _ => [.mem, .pc]

/-- The effect of an instruction writes the pieces of state its rule names and no other. -/
theorem Effect.sameExcept (he : Effect s t i) : SameExcept (writtenParts i) s t := by
  cases i with
  | jp _ | jpV0 _ =>
    cases he
    exact sameExcept_setPc s _
  | seImm _ _ | sneImm _ _ | seReg _ _ _ | sneReg _ _ _ | skp _ | sknp _ =>
    cases he
    exact sameExcept_skipIf s _
  | call _ =>
    obtain ⟨hsp, rfl⟩ := he
    exact sameExcept_pushed_setPc s _ _ hsp
  | ret _ =>
    obtain ⟨-, -, rfl⟩ := he
    exact sameExcept_popped_setPc s _
  | ldImm _ _ | addImm _ _ | ldReg _ _ | orReg _ _ | andReg _ _ | xorReg _ _ | addReg _ _ | sub _ _ | shr _ _
  | subn _ _ | shl _ _ | ldVxDt _ | ldVxMem _ =>
    cases he
    exact sameExcept_setRegs_advance s _
  | ldVxK _ =>
    rcases he with ⟨_, -, rfl⟩ | ⟨-, rfl⟩
    · exact sameExcept_setRegs_advance s _
    · exact sameExcept_refl _ _
  | rnd _ _ =>
    cases he
    exact sameExcept_drawn_setRegs_advance s _
  | drw _ _ _ =>
    cases he
    exact sameExcept_setFb_setRegs_advance s _ _
  | cls _ =>
    cases he
    exact sameExcept_setFb_advance s _
  | ldI _ | addI _ | ldF _ =>
    cases he
    exact sameExcept_setI_advance s _
  | ldDtVx _ =>
    cases he
    exact sameExcept_setDt_advance s _
  | ldStVx _ =>
    cases he
    exact sameExcept_setSt_advance s _
  | ldB _ | ldMemVx _ =>
    cases he
    exact sameExcept_setMem_advance s _

/-- Raising an error writes `STATUS` alone. -/
theorem sameExcept_setStatus (s : State) (st : Status) : SameExcept [.status] s (s.setStatus st) := by
  intro part hpart
  cases part with
  | status => simp at hpart
  | regs | mem => exact fun _ => rfl
  | i | pc | sp | stack | dt | st | fb | keys | ir | draws => rfl

/-- A piece of state that differs after an instruction is `STATUS` or one its rule names. -/
theorem mem_writtenParts_of_exec {p : Part} (h : exec i s = .next t) (hne : ¬ SamePart s t p) (hp : p ≠ .status) :
    fatalOf i s = none ∧ Effect s t i ∧ p ∈ writtenParts i := by
  rcases exec_next h with ⟨e, -, rfl⟩ | ⟨hf, he⟩
  · exact absurd (sameExcept_setStatus s _ p (by simpa using hp)) hne
  · refine ⟨hf, he, ?_⟩
    by_contra hnot
    exact hne (he.sameExcept p hnot)

end Sys2Proof.Machine
end

section
/-! PROOF. What one step of a running or halted state answers, case by case (spec/40_step_cycle.md): the converse of
`step_next`. -/

namespace Sys2Proof.Machine

variable {s t : State} {i : Instr} {w : Word}

/-! ### The step, case by case -/

theorem step_of_halted {e : FatalError} (hs : s.status = .halted e) : step s = .next s := by
  simp only [step, hs]

theorem step_of_fetch_none (hrun : s.status = .running) (hw : fetch s = none) :
    step s = raise .programCounterOutOfBounds s := by
  simp only [step, hrun, hw]

theorem step_of_unknown (hrun : s.status = .running) (hw : fetch s = some w) (hdec : decodeWord w = none) :
    step s = .next (endOfStep (unknownOpcode (s.setIr w))) := by
  simp only [step, hrun, hw, hdec]

theorem step_of_decoded (hrun : s.status = .running) (hw : fetch s = some w) (hdec : decodeWord w = some i) :
    step s = completeStep (exec i (s.setIr w)) := by
  simp only [step, hrun, hw, hdec]

theorem unknownOpcodeOut_of_unknown (hrun : s.status = .running) (hw : fetch s = some w)
    (hdec : decodeWord w = none) : unknownOpcodeOut s = true := by
  simp [unknownOpcodeOut, hrun, hw, hdec]

/-! ### What every step answers -/

/-- The phases after execute turn a next state into a next state. -/
theorem completeStep_answers (u : State) : ∃ t, completeStep (.next u) = .next t := by
  cases hu : u.status with
  | running => exact ⟨_, completeStep_running hu⟩
  | halted e => exact ⟨_, completeStep_halted hu⟩

/-- With a legal `SP` every step answers a next state. -/
theorem step_answers (hsp : s.sp.toNat ≤ 16) : ∃ t, step s = .next t := by
  cases hs : s.status with
  | halted e => exact ⟨s, step_of_halted hs⟩
  | running =>
    cases hw : fetch s with
    | none => exact ⟨_, step_of_fetch_none hs hw⟩
    | some w =>
      cases hdec : decodeWord w with
      | none => exact ⟨_, step_of_unknown hs hw hdec⟩
      | some i =>
        obtain ⟨u, hu⟩ := exec_answers (s := s.setIr w) hsp i
        rw [step_of_decoded hs hw hdec, hu]
        exact completeStep_answers u

theorem ir_notMem_writtenParts : Part.ir ∉ writtenParts i := by
  cases i <;> simp [writtenParts]

theorem keys_notMem_writtenParts : Part.keys ∉ writtenParts i := by
  cases i <;> simp [writtenParts]

/-- No instruction writes `IR` or the key latches. -/
theorem exec_keeps_ir_and_keys (h : exec i s = .next t) : t.ir = s.ir ∧ t.keys = s.keys := by
  rcases exec_next h with ⟨e, -, rfl⟩ | ⟨-, he⟩
  · exact ⟨rfl, rfl⟩
  · exact ⟨he.sameExcept .ir ir_notMem_writtenParts, he.sameExcept .keys keys_notMem_writtenParts⟩

/-- A step of a running state leaves the word it fetched in `IR`, and `IR` as it was where it fetched none (R24). -/
theorem step_ir (hrun : s.status = .running) (h : step s = .next t) :
    (fetch s = none → t.ir = s.ir) ∧ (∀ w, fetch s = some w → t.ir = w) := by
  rcases step_next h with ⟨⟨e, hs⟩, -⟩ | ⟨-, hnone, rfl⟩ | ⟨-, w, hw, hdec⟩
  · cases hrun.symm.trans hs
  · exact ⟨fun _ => rfl, fun w hw => nomatch hnone.symm.trans hw⟩
  · refine ⟨fun hnone => (nomatch hnone.symm.trans hw), fun w' hw' => ?_⟩
    cases hw.symm.trans hw'
    rcases hdec with ⟨-, rfl⟩ | ⟨i, u, -, hu, hend⟩
    · rfl
    · obtain ⟨hir, -⟩ := exec_keeps_ir_and_keys hu
      rcases hend with ⟨-, rfl⟩ | ⟨-, rfl⟩
      · exact hir
      · exact hir

/-- A step that ends the run writes `STATUS` and `IR` alone. -/
theorem sameExcept_setIr_setStatus (s : State) (w : Word) (st : Status) :
    SameExcept [.status, .ir] s ((s.setIr w).setStatus st) := by
  intro part hpart
  cases part with
  | status | ir => simp at hpart
  | regs | mem => exact fun _ => rfl
  | i | pc | sp | stack | dt | st | fb | keys | draws => rfl

/-- A step over an unknown word writes `PC`, `IR`, the latches and the timers alone. -/
theorem sameExcept_unknown_step (s : State) (w : Word) :
    SameExcept [.pc, .ir, .keys, .dt, .st] s (endOfStep (unknownOpcode (s.setIr w))) := by
  intro part hpart
  cases part with
  | pc | ir | keys | dt | st => simp at hpart
  | regs | mem => exact fun _ => rfl
  | i | sp | stack | fb | status | draws => rfl

/-- The status an instruction leaves a running state in is the one the table of errors gives it. -/
theorem exec_status (hrun : s.status = .running) (h : exec i s = .next t) : t.status = statusOf (fatalOf i s) := by
  rcases exec_next h with ⟨e, hf, rfl⟩ | ⟨hf, he⟩
  · rw [hf, statusOf, State.setStatus_status]
  · obtain ⟨hstatus, -⟩ := he.status_and_timers
    rw [hf, statusOf, hstatus, hrun]

/-- A running state whose step answers has one of the outcomes of R9, and not the one of a halted state. -/
theorem specStep_of_running (hrun : s.status = .running) (h : step s = .next t) :
    specStep s ≠ .outside ∧ specStep s ≠ .disabled := by
  simp only [specStep, hrun, h]
  cases ht : t.status with
  | halted e => simp
  | running => cases hu : unknownOpcodeOut s <;> simp

/-! ### Fetch -/

/-- The high byte of a word is the byte at the lower address (R32). -/
theorem wordOfBytes_getLsbD_high (hi lo : Byte) (k : Nat) :
    (wordOfBytes hi lo).getLsbD (8 + k) = hi.getLsbD k := by
  simp only [wordOfBytes, BitVec.getLsbD_append]
  simp

/-- The low byte of a word is the byte at the higher address (R32). -/
theorem wordOfBytes_getLsbD_low (hi lo : Byte) (k : Nat) (hk : k < 8) :
    (wordOfBytes hi lo).getLsbD k = lo.getLsbD k := by
  simp only [wordOfBytes, BitVec.getLsbD_append]
  simp [hk]

/-- Two bytes decode to an instruction when their word does. -/
theorem decodeWord_of_decode {hi lo : Byte} {rest : List Byte} (h : decode [hi, lo] = .ok (i, rest)) :
    decodeWord (wordOfBytes hi lo) = some i := by
  cases hdec : decodeWord (wordOfBytes hi lo) with
  | none => simp [decode, hdec] at h
  | some j =>
    simp only [decode, hdec, Except.ok.injEq, Prod.mk.injEq] at h
    rw [h.1]

/-! ### The obligations -/

/-- Settles O6: fetch assembles the two bytes, and the failing fetch raises. -/
theorem fetchReadsBigEndianWord : Obligations.FetchReadsBigEndianWord := by
  refine fun s => ⟨fun hpc => ?_, fun hpc => ⟨fetch_of_ge hpc, fun hrun => ?_⟩⟩
  · exact ⟨_, fetch_of_lt hpc, fun k _ => wordOfBytes_getLsbD_high _ _ k, wordOfBytes_getLsbD_low _ _⟩
  · rw [step_of_fetch_none hrun (fetch_of_ge hpc)]
    exact haltsWith_raise s _

/-- Settles O7: the word of the two bytes is the fetched one, and it decodes. -/
theorem stepRunsDecodedInstruction : Obligations.StepRunsDecodedInstruction :=
  fun _ _ _ hrun hpc hdec => step_of_decoded hrun (fetch_of_lt hpc) (decodeWord_of_decode hdec)

/-- Settles O8: the step looks at `STATUS` before anything else. -/
theorem haltedStepChangesNothing : Obligations.HaltedStepChangesNothing := fun _ _ => step_of_halted

/-- Settles O10: the step moves `PC` on and runs phases K and T. -/
theorem unknownWordAdvancesAndReports : Obligations.UnknownWordAdvancesAndReports :=
  fun s w hrun hw hdec => ⟨unknownOpcodeOut_of_unknown hrun hw hdec, _, step_of_unknown hrun hw hdec, rfl, rfl, hrun,
    fun k => by simp, countDown_toNat s.dt, countDown_toNat s.st, sameExcept_unknown_step s w⟩

/-- Settles O11: a fatal step writes `STATUS` and `IR`, and `IR` holds what was fetched. -/
theorem fatalStepWritesOnlyStatusAndIr : Obligations.FatalStepWritesOnlyStatusAndIr := by
  intro s t e hrun h ht
  refine ⟨?_, step_ir hrun h⟩
  obtain ⟨w, e', rfl⟩ := step_fatal hrun h (by simp [ht])
  exact sameExcept_setIr_setStatus s w _

/-- Settles O12: the answer exists because the stack accesses are legal, and its status is the table's. -/
theorem execRaisesExactlyTheFatalTable : Obligations.ExecRaisesExactlyTheFatalTable := by
  intro i s hrun hsp
  obtain ⟨t, ht⟩ := exec_answers hsp i
  exact ⟨t, ht, exec_status hrun ht⟩

/-- Settles O52: the invariant bounds `SP`, so every step answers, and its outcome is read off the answer. -/
theorem everyStepHasASpecOutcome : Obligations.EveryStepHasASpecOutcome := by
  intro s hinv
  obtain ⟨t, ht⟩ := step_answers hinv.spBound
  refine ⟨⟨t, ht⟩, ?_, fun hrun => (specStep_of_running hrun ht).2⟩
  cases hs : s.status with
  | halted e => simp [specStep, hs]
  | running => exact (specStep_of_running hs ht).1

end Sys2Proof.Machine
end

section
/-! PROOF. `IR` and the stack slots above `SP` are never read (R17, R24, U15): states that differ only there have the
same fetch, the same errors and effects that differ only there. -/

namespace Sys2Proof.Machine

variable {s t u : State} {i : Instr} {w : Word}

namespace StaleEquiv

/-- A state equivalent to `s` is `s` with another `IR` and another stack, equal in the valid entries. -/
theorem exists_eq (h : StaleEquiv s t) :
    ∃ (r : Word) (k : Vector Word 16), t = { s with ir := r, stack := k } ∧
      ∀ j : Fin 16, j.val < s.sp.toNat → s.stack[j] = k[j] :=
  ⟨t.ir, t.stack, h.rest.symm, h.valid⟩

theorem status_eq (h : StaleEquiv s t) : t.status = s.status := by
  obtain ⟨r, k, rfl, -⟩ := h.exists_eq
  rfl

theorem fetch_eq (h : StaleEquiv s t) : fetch t = fetch s := by
  obtain ⟨r, k, rfl, -⟩ := h.exists_eq
  rfl

theorem fatalOf_eq (h : StaleEquiv s t) (i : Instr) : fatalOf i t = fatalOf i s := by
  obtain ⟨r, k, rfl, -⟩ := h.exists_eq
  cases i <;> rfl

/-! ### Updates that keep the equivalence -/

theorem setIr (h : StaleEquiv s t) (w : Word) : StaleEquiv (s.setIr w) (t.setIr w) := by
  obtain ⟨r, k, rfl, hvalid⟩ := h.exists_eq
  exact ⟨rfl, hvalid⟩

theorem setStatus (h : StaleEquiv s t) (st : Status) : StaleEquiv (s.setStatus st) (t.setStatus st) := by
  obtain ⟨r, k, rfl, hvalid⟩ := h.exists_eq
  exact ⟨rfl, hvalid⟩

theorem setPc (h : StaleEquiv s t) (p : Word) : StaleEquiv (s.setPc p) (t.setPc p) := by
  obtain ⟨r, k, rfl, hvalid⟩ := h.exists_eq
  exact ⟨rfl, hvalid⟩

theorem endOfStep (h : StaleEquiv s t) : StaleEquiv (endOfStep s) (endOfStep t) := by
  obtain ⟨r, k, rfl, hvalid⟩ := h.exists_eq
  exact ⟨rfl, hvalid⟩

theorem unknownOpcode (h : StaleEquiv s t) : StaleEquiv (unknownOpcode s) (unknownOpcode t) := by
  obtain ⟨r, k, rfl, hvalid⟩ := h.exists_eq
  exact ⟨rfl, hvalid⟩

theorem skipIf (h : StaleEquiv s t) (c : Bool) : StaleEquiv (s.skipIf c) (t.skipIf c) := by
  obtain ⟨r, k, rfl, hvalid⟩ := h.exists_eq
  cases c with
  | false => exact ⟨rfl, hvalid⟩
  | true => exact ⟨rfl, hvalid⟩

/-- A push makes its own slot equal, and the valid entries below it were. -/
theorem pushed (h : StaleEquiv s t) (val : Word) (hs : s.sp.toNat < 16) (ht : t.sp.toNat < 16) :
    StaleEquiv (s.pushed val hs) (t.pushed val ht) := by
  obtain ⟨r, k, rfl, hvalid⟩ := h.exists_eq
  refine ⟨rfl, fun j hj => ?_⟩
  simp only [State.pushed_stack, Fin.getElem_fin, Vector.getElem_set]
  split
  · rfl
  · rw [State.pushed_sp, sp_add_one_toNat hs] at hj
    exact hvalid j (by omega)

/-- A pop leaves fewer valid entries. -/
theorem popped (h : StaleEquiv s t) (h0 : s.sp ≠ 0) : StaleEquiv s.popped t.popped := by
  obtain ⟨r, k, rfl, hvalid⟩ := h.exists_eq
  refine ⟨rfl, fun j hj => ?_⟩
  rw [State.popped_sp, sp_sub_one_toNat (sp_toNat_ne_zero h0)] at hj
  exact hvalid j (by omega)

/-! ### Instructions and steps -/

/-- Equivalent states have equivalent effects: the only stack entry an instruction reads is a valid one. -/
theorem effect (h : StaleEquiv s t) (he : Effect s u i) : ∃ u', Effect t u' i ∧ StaleEquiv u u' := by
  obtain ⟨r, k, rfl, hvalid⟩ := h.exists_eq
  cases i with
  | cls _ | jp _ | jpV0 _ | ldImm _ _ | addImm _ _ | ldReg _ _ | orReg _ _ | andReg _ _ | xorReg _ _ | addReg _ _
  | sub _ _ | shr _ _ | subn _ _ | shl _ _ | ldI _ | rnd _ _ | drw _ _ _ | ldVxDt _ | ldDtVx _ | ldStVx _ | addI _
  | ldF _ | ldB _ | ldMemVx _ | ldVxMem _ =>
    cases he
    exact ⟨_, rfl, rfl, hvalid⟩
  | seImm _ _ | sneImm _ _ | seReg _ _ _ | sneReg _ _ _ | skp _ | sknp _ =>
    cases he
    exact ⟨_, rfl, h.skipIf _⟩
  | ldVxK x =>
    rcases he with ⟨n, hn, rfl⟩ | ⟨hnone, rfl⟩
    · exact ⟨_, .inl ⟨n, hn, rfl⟩, rfl, hvalid⟩
    · exact ⟨_, .inr ⟨hnone, rfl⟩, h⟩
  | call nnn =>
    obtain ⟨hsp, rfl⟩ := he
    exact ⟨_, ⟨hsp, rfl⟩, (h.pushed _ hsp hsp).setPc _⟩
  | ret _ =>
    obtain ⟨h0, hsp, rfl⟩ := he
    have hpos := sp_toNat_ne_zero h0
    have htop : s.stack[s.sp.toNat - 1] = k[s.sp.toNat - 1] := hvalid ⟨s.sp.toNat - 1, hsp⟩ (by simp only; omega)
    rw [htop]
    exact ⟨_, ⟨h0, hsp, rfl⟩, (h.popped h0).setPc _⟩

/-- An instruction takes equivalent states to equivalent states, by its error or by its effect. -/
theorem exec (h : StaleEquiv s t) (hu : exec i s = .next u) : ∃ u', exec i t = .next u' ∧ StaleEquiv u u' := by
  rcases exec_next hu with ⟨e, hf, rfl⟩ | ⟨hf, he⟩
  · exact ⟨_, exec_of_fatal ((h.fatalOf_eq i).trans hf), h.setStatus _⟩
  · obtain ⟨u', he', hequiv⟩ := h.effect he
    exact ⟨u', exec_of_effect ((h.fatalOf_eq i).trans hf) he', hequiv⟩

end StaleEquiv

/-- A step takes equivalent states to equivalent states. -/
theorem StaleEquiv.step (h : StaleEquiv s t) (hu : step s = .next u) : ∃ u', step t = .next u' ∧ StaleEquiv u u' := by
  rcases step_next hu with ⟨⟨e, hs⟩, rfl⟩ | ⟨hrun, hnone, rfl⟩ | ⟨hrun, w, hw, hdec⟩
  · exact ⟨t, step_of_halted (h.status_eq.trans hs), h⟩
  · exact ⟨_, step_of_fetch_none (h.status_eq.trans hrun) (h.fetch_eq.trans hnone), h.setStatus _⟩
  · have hrun' := h.status_eq.trans hrun
    have hw' := h.fetch_eq.trans hw
    rcases hdec with ⟨hdec, rfl⟩ | ⟨i, v, hdec, hv, hend⟩
    · exact ⟨_, step_of_unknown hrun' hw' hdec, (h.setIr w).unknownOpcode.endOfStep⟩
    · obtain ⟨v', hv', hequiv⟩ := (h.setIr w).exec hv
      rw [step_of_decoded hrun' hw' hdec, hv']
      rcases hend with ⟨hvrun, rfl⟩ | ⟨⟨e, hve⟩, rfl⟩
      · exact ⟨_, completeStep_running (hequiv.status_eq.trans hvrun), hequiv.endOfStep⟩
      · exact ⟨v', completeStep_halted (hequiv.status_eq.trans hve), hequiv⟩

/-- Settles O53: equivalent states fetch the same word and have equivalent effects; the phases around execute read
neither `IR` nor the stack. -/
theorem staleStateIsUnobservable : Obligations.StaleStateIsUnobservable := fun _ _ _ h _ => h.step

end Sys2Proof.Machine
end

section
/-! PROOF. Which instructions write each storage (spec/10_state.md), and which see the draw counter (spec/47_random.md):
read off `writtenParts`, the one list of what each effect writes. -/

namespace Sys2Proof.Machine

variable {s t : State} {i : Instr}

/-! ### The writers of each piece of state -/

theorem fb_mem_writtenParts (h : Part.fb ∈ writtenParts i) : (∃ z, i = .cls z) ∨ ∃ x y n, i = .drw x y n := by
  cases i with
  | cls z => exact .inl ⟨z, rfl⟩
  | drw x y n => exact .inr ⟨x, y, n, rfl⟩
  | _ => simp [writtenParts] at h

theorem stack_mem_writtenParts (h : Part.stack ∈ writtenParts i) : ∃ nnn, i = .call nnn := by
  cases i with
  | call nnn => exact ⟨nnn, rfl⟩
  | _ => simp [writtenParts] at h

theorem sp_mem_writtenParts (h : Part.sp ∈ writtenParts i) : (∃ nnn, i = .call nnn) ∨ ∃ z, i = .ret z := by
  cases i with
  | call nnn => exact .inl ⟨nnn, rfl⟩
  | ret z => exact .inr ⟨z, rfl⟩
  | _ => simp [writtenParts] at h

theorem i_mem_writtenParts (h : Part.i ∈ writtenParts i) :
    (∃ nnn, i = .ldI nnn) ∨ (∃ x, i = .addI x) ∨ ∃ x, i = .ldF x := by
  cases i with
  | ldI nnn => exact .inl ⟨nnn, rfl⟩
  | addI x => exact .inr (.inl ⟨x, rfl⟩)
  | ldF x => exact .inr (.inr ⟨x, rfl⟩)
  | _ => simp [writtenParts] at h

theorem dt_mem_writtenParts (h : Part.dt ∈ writtenParts i) : ∃ x, i = .ldDtVx x := by
  cases i with
  | ldDtVx x => exact ⟨x, rfl⟩
  | _ => simp [writtenParts] at h

theorem st_mem_writtenParts (h : Part.st ∈ writtenParts i) : ∃ x, i = .ldStVx x := by
  cases i with
  | ldStVx x => exact ⟨x, rfl⟩
  | _ => simp [writtenParts] at h

theorem mem_mem_writtenParts (h : Part.mem ∈ writtenParts i) : (∃ x, i = .ldB x) ∨ ∃ x, i = .ldMemVx x := by
  cases i with
  | ldB x => exact .inl ⟨x, rfl⟩
  | ldMemVx x => exact .inr ⟨x, rfl⟩
  | _ => simp [writtenParts] at h

/-! ### The writers of `VF` -/

/-- A register write that changes `VF` is a write to `VF`. -/
theorem eq_vf_of_setReg {x : Nibble} {r : Byte} (hne : (s.setReg x r).advance.reg 15 ≠ s.reg 15) : x = 15 := by
  by_contra hx
  exact hne (by rw [State.advance_reg, State.setReg_reg, if_neg (Ne.symm hx)])

/-- Register `j` after LD Vx, [I]: the byte at `I + j` up to `x`, the old one above (R98). -/
theorem bulkLoaded_reg (s : State) (x j : Nibble) :
    (s.setRegs (loadRegs (s.mem.readBytes (baseAddress s) (bulkCount x)) 0 s.v)).reg j =
      if j.toNat ≤ x.toNat then s.mem.read (baseAddress s + j.toNat) else s.reg j := by
  rw [State.setRegs_reg, loadRegs_getElem]
  have hlength : (s.mem.readBytes (baseAddress s) (bulkCount x)).length = x.toNat + 1 := Memory.length_readBytes ..
  by_cases hj : j.toNat ≤ x.toNat
  · rw [dif_pos ⟨Nat.zero_le _, by omega⟩, if_pos hj, Memory.getElem_readBytes, Nat.sub_zero]
  · rw [dif_neg (by omega), if_neg hj, State.reg]

/-- A bulk load writes `VF` only when `VF` is its last register. -/
theorem eq_vf_of_bulkLoaded {x : Nibble}
    (hne : (s.setRegs (loadRegs (s.mem.readBytes (baseAddress s) (bulkCount x)) 0 s.v)).advance.reg 15 ≠ s.reg 15) :
    x = 15 := by
  by_contra hx
  have habove : ¬ (15 : Nibble).toNat ≤ x.toNat := by bv_omega
  exact hne (by rw [State.advance_reg, bulkLoaded_reg, if_neg habove])

/-! ### The draw counter -/

/-- No check reads the draw counter. -/
theorem fatalOf_draws (i : Instr) (s : State) (n : Nat) : fatalOf i { s with draws := n } = fatalOf i s := by
  cases i <;> rfl

/-- A skip carries the draw counter along. -/
theorem skipIf_with_draws (s : State) (c : Bool) (n : Nat) :
    { s.skipIf c with draws := n } = State.skipIf { s with draws := n } c := by
  cases c <;> rfl

/-- No effect but RND's reads or writes the draw counter. -/
theorem Effect.with_draws (he : Effect s t i) (hi : ∀ x kk, i ≠ .rnd x kk) (n : Nat) :
    Effect { s with draws := n } { t with draws := n } i := by
  cases i with
  | rnd x kk => exact absurd rfl (hi x kk)
  | cls _ | jp _ | jpV0 _ | ldImm _ _ | addImm _ _ | ldReg _ _ | orReg _ _ | andReg _ _ | xorReg _ _ | addReg _ _
  | sub _ _ | shr _ _ | subn _ _ | shl _ _ | ldI _ | drw _ _ _ | ldVxDt _ | ldDtVx _ | ldStVx _ | addI _ | ldF _
  | ldB _ | ldMemVx _ | ldVxMem _ =>
    cases he
    rfl
  | seImm _ _ | sneImm _ _ | seReg _ _ _ | sneReg _ _ _ | skp _ | sknp _ =>
    cases he
    exact skipIf_with_draws s _ n
  | ldVxK x =>
    rcases he with ⟨k, hk, rfl⟩ | ⟨hnone, rfl⟩
    · exact .inl ⟨k, hk, rfl⟩
    · exact .inr ⟨hnone, rfl⟩
  | call nnn =>
    obtain ⟨hsp, rfl⟩ := he
    exact ⟨hsp, rfl⟩
  | ret _ =>
    obtain ⟨h0, hsp, rfl⟩ := he
    exact ⟨h0, hsp, rfl⟩

/-! ### The obligations -/

/-- Settles O37: the draw counter is read by no check and by no effect but RND's. -/
theorem onlyRndSeesTheDraw : Obligations.OnlyRndSeesTheDraw := by
  intro i s t n hi h
  rcases exec_next h with ⟨e, hf, rfl⟩ | ⟨hf, he⟩
  · exact exec_of_fatal ((fatalOf_draws i s n).trans hf)
  · exact exec_of_effect ((fatalOf_draws i s n).trans hf) (he.with_draws hi n)

/-- Settles O42: an instruction that writes the registers has a flag in `VF`, or writes its destination alone. -/
theorem vfWritersAreTheTable : Obligations.VfWritersAreTheTable := by
  intro i s t h hne
  obtain ⟨-, he, hwritten⟩ := mem_writtenParts_of_exec (p := .regs) h (fun hsame => hne (hsame 15)) (by decide)
  cases i with
  | addReg x y | sub x y | subn x y | shr x y | shl x y => exact .inl ⟨x, y, by simp⟩
  | drw x y n => exact .inr (.inl ⟨x, y, n, rfl⟩)
  | ldImm x kk | addImm x kk | rnd x kk =>
    cases he
    obtain rfl := eq_vf_of_setReg hne
    exact .inr (.inr (.inl ⟨0, kk, by simp⟩))
  | ldReg x y | orReg x y | andReg x y | xorReg x y =>
    cases he
    obtain rfl := eq_vf_of_setReg hne
    exact .inr (.inr (.inl ⟨y, 0, by simp⟩))
  | ldVxDt x =>
    cases he
    obtain rfl := eq_vf_of_setReg hne
    exact .inr (.inr (.inr (.inl rfl)))
  | ldVxK x =>
    rcases he with ⟨k, -, rfl⟩ | ⟨-, rfl⟩
    · obtain rfl := eq_vf_of_setReg hne
      exact .inr (.inr (.inr (.inr (.inl rfl))))
    · exact absurd rfl hne
  | ldVxMem x =>
    cases he
    obtain rfl := eq_vf_of_bulkLoaded hne
    exact .inr (.inr (.inr (.inr (.inr rfl))))
  | cls _ | ret _ | jp _ | call _ | seImm _ _ | sneImm _ _ | seReg _ _ _ | sneReg _ _ _ | ldI _ | jpV0 _ | skp _
  | sknp _ | ldDtVx _ | ldStVx _ | addI _ | ldF _ | ldB _ | ldMemVx _ => simp [writtenParts] at hwritten

/-- Settles O41: memory is written by the two stores, which leave the bytes outside theirs alone. -/
theorem onlyStoresChangeMemory : Obligations.OnlyStoresChangeMemory := by
  intro i s t a h hne
  obtain ⟨hf, he, hwritten⟩ := mem_writtenParts_of_exec (p := .mem) h (fun hsame => hne (hsame a)) (by decide)
  rcases mem_mem_writtenParts hwritten with ⟨x, rfl⟩ | ⟨x, rfl⟩
  · refine .inl ⟨x, rfl, ?_⟩
    cases he
    by_contra hout
    exact hne (bcdStored_read_outside (by simp only [baseAddress] at hout; omega))
  · refine .inr ⟨x, rfl, ?_⟩
    cases he
    by_contra hout
    exact hne (bulkStored_read_outside (by simp only [baseAddress] at hout; omega))

/-- Settles O43: each storage that differs is one the instruction's rule names. -/
theorem specialStateHasOnlyItsWriters : Obligations.SpecialStateHasOnlyItsWriters := by
  intro i s t h
  have hwritten (p : Part) (hp : p ≠ .status) (hne : ¬ SamePart s t p) : p ∈ writtenParts i := by
    obtain ⟨-, -, hmem⟩ := mem_writtenParts_of_exec h hne hp
    exact hmem
  obtain ⟨hir, hkeys⟩ := exec_keeps_ir_and_keys h
  exact ⟨fun hne => fb_mem_writtenParts (hwritten .fb (by decide) hne),
    fun hne => stack_mem_writtenParts (hwritten .stack (by decide) hne),
    fun hne => sp_mem_writtenParts (hwritten .sp (by decide) hne),
    fun hne => i_mem_writtenParts (hwritten .i (by decide) hne),
    fun hne => dt_mem_writtenParts (hwritten .dt (by decide) hne),
    fun hne => st_mem_writtenParts (hwritten .st (by decide) hne), hkeys, hir⟩

end Sys2Proof.Machine
end

section
/-! PROOF. CALL and RET (spec/41_control_flow.md, R72, R73): which slot a push writes, which entry a pop returns. -/

namespace Sys2Proof.Machine

variable {s : State}

/-- A push writes the slot `SP` names and no other. -/
theorem pushed_stack_getElem (val : Word) (h : s.sp.toNat < 16) (j : Fin 16) :
    (s.pushed val h).stack[j] = if j.val = s.sp.toNat then val else s.stack[j] := by
  simp only [State.pushed_stack, Fin.getElem_fin, Vector.getElem_set, eq_comm]

/-- With `j + 1` entries the effect of RET is to continue behind the address in slot `j` (R73). -/
theorem effect_ret_of_entries (z : Nibble) (j : Fin 16) (h : s.sp.toNat = j.val + 1) :
    Effect s (s.popped.setPc (s.stack[j] + 2)) (.ret z) := by
  have htop : s.sp.toNat - 1 = j.val := by omega
  refine ⟨fun h0 => by simp [h0] at h, by omega, ?_⟩
  simp only [htop, Fin.getElem_fin]
  rfl

/-- Settles O15: the push writes `PC` to slot `SP`; a full stack is the check of CALL. -/
theorem callPushesOwnAddress : Obligations.CallPushesOwnAddress := by
  refine fun nnn s => ⟨fun hsp => ?_, fun hfull => exec_haltsWith (if_pos hfull)⟩
  exact ⟨_, exec_call_of_lt nnn hsp, addrOperand_toNat nnn, sp_add_one_toNat hsp, pushed_stack_getElem s.pc hsp,
    sameExcept_pushed_setPc s _ _ hsp⟩

/-- Settles O16: the pop returns the newest entry; an empty stack is the check of RET. -/
theorem returnContinuesAfterCall : Obligations.ReturnContinuesAfterCall := by
  refine fun z s => ⟨fun j hj => ?_, fun hempty => exec_haltsWith (if_pos hempty)⟩
  have hcount : (s.sp - 1).toNat = j.val := by rw [sp_sub_one_toNat (by omega), hj, Nat.add_sub_cancel]
  have he := effect_ret_of_entries z j hj
  exact ⟨_, exec_of_effect (if_neg (by omega)) he, rfl, hcount, he.sameExcept⟩

end Sys2Proof.Machine
end

section
/-! PROOF. The bitwise operations and the five flag-writing operations (spec/42_arithmetic.md, R83 to R91), and RND
(spec/47_random.md, R116). -/

namespace Sys2Proof.Machine

variable {s : State}

/-! ### What each instruction answers -/

theorem exec_orReg (x y : Nibble) : exec (.orReg x y) s = finishReg x (s.reg x ||| s.reg y) s := rfl

theorem exec_andReg (x y : Nibble) : exec (.andReg x y) s = finishReg x (s.reg x &&& s.reg y) s := rfl

theorem exec_xorReg (x y : Nibble) : exec (.xorReg x y) s = finishReg x (s.reg x ^^^ s.reg y) s := rfl

theorem exec_addReg (x y : Nibble) :
    exec (.addReg x y) s = finishFlagged x (s.reg x + s.reg y) (carryFlag (s.reg x) (s.reg y)) s := rfl

theorem exec_sub (x y : Nibble) :
    exec (.sub x y) s = finishFlagged x (s.reg x - s.reg y) (noBorrowFlag (s.reg x) (s.reg y)) s := rfl

theorem exec_subn (x y : Nibble) :
    exec (.subn x y) s = finishFlagged x (s.reg y - s.reg x) (noBorrowFlag (s.reg y) (s.reg x)) s := rfl

theorem exec_shr (x y : Nibble) : exec (.shr x y) s = finishFlagged x (s.reg x >>> 1) (shrFlag (s.reg x)) s := rfl

theorem exec_shl (x y : Nibble) : exec (.shl x y) s = finishFlagged x (s.reg x <<< 1) (shlFlag (s.reg x)) s := rfl

/-! ### Bitwise operations -/

/-- An instruction whose result has the bits `bit k` ends with them in its destination. -/
theorem finishReg_bits {o : Out} {x : Nibble} {r : Byte} {bit : Nat → Bool} (ho : o = finishReg x r s)
    (hbit : ∀ k, r.getLsbD k = bit k) :
    ∃ t, o = .next t ∧ t.pc = s.pc + 2 ∧ (∀ k, (t.reg x).getLsbD k = bit k) ∧ (∀ j, j ≠ x → t.reg j = s.reg j) ∧
      SameExcept [.regs, .pc] s t := by
  obtain ⟨t, hexec, hx, hpc, hother, hframe⟩ := finishReg_spec ho
  exact ⟨t, hexec, hpc, fun k => by rw [hx, hbit], hother, hframe⟩

/-- Settles O21: the bits of the three results. -/
theorem bitwiseOperationsBitByBit : Obligations.BitwiseOperationsBitByBit := fun x y _ =>
  ⟨finishReg_bits (exec_orReg x y) fun _ => BitVec.getLsbD_or,
    finishReg_bits (exec_andReg x y) fun _ => BitVec.getLsbD_and,
    finishReg_bits (exec_xorReg x y) fun _ => BitVec.getLsbD_xor⟩

/-! ### Result and flag -/

/-- An instruction that ends in `finishFlagged` leaves the flag in `VF`, the result in any other destination, and moves
`PC` on by 2 (R91). -/
theorem finishFlagged_spec {o : Out} {x : Nibble} {r f : Byte} (ho : o = finishFlagged x r f s) :
    ∃ t, o = .next t ∧ (x ≠ 15 → t.reg x = r) ∧ t.reg 15 = f ∧ t.pc = s.pc + 2 ∧
      (∀ j, j ≠ x → j ≠ 15 → t.reg j = s.reg j) ∧ SameExcept [.regs, .pc] s t := by
  have hreg (j : Nibble) : (writeResultFlag params.vfOrder x r f s).advance.reg j =
      if j = 15 then f else if j = x then r else s.reg j := writeResultFlag_reg x j r f
  refine ⟨_, ho, fun hx => ?_, ?_, rfl, fun j hj hvf => ?_, sameExcept_setRegs_advance s _⟩
  · rw [hreg, if_neg hx, if_pos rfl]
  · rw [hreg, if_pos rfl]
  · rw [hreg, if_neg hvf, if_neg hj]

/-- The same with result and flag known as numbers, for a destination other than `VF`. -/
theorem finishFlagged_toNat {o : Out} {x : Nibble} {r f : Byte} {result flag : Nat} (ho : o = finishFlagged x r f s)
    (hx : x ≠ 15) (hr : r.toNat = result) (hf : f.toNat = flag) :
    ∃ t, o = .next t ∧ (t.reg x).toNat = result ∧ (t.reg 15).toNat = flag ∧ t.pc = s.pc + 2 ∧
      (∀ j, j ≠ x → j ≠ 15 → t.reg j = s.reg j) ∧ SameExcept [.regs, .pc] s t := by
  obtain ⟨t, hexec, hresult, hflag, hrest⟩ := finishFlagged_spec ho
  exact ⟨t, hexec, by rw [hresult hx, hr], by rw [hflag, hf], hrest⟩

/-- The same for `VF` as the destination: the flag alone remains. -/
theorem finishFlagged_vf_toNat {o : Out} {r f : Byte} {flag : Nat} (ho : o = finishFlagged 15 r f s)
    (hf : f.toNat = flag) :
    ∃ t, o = .next t ∧ (t.reg 15).toNat = flag ∧ t.pc = s.pc + 2 ∧ (∀ j, j ≠ 15 → t.reg j = s.reg j) ∧
      SameExcept [.regs, .pc] s t := by
  obtain ⟨t, hexec, -, hflag, hpc, hother, hframe⟩ := finishFlagged_spec ho
  exact ⟨t, hexec, by rw [hflag, hf], hpc, fun j hj => hother j hj hj, hframe⟩

/-! ### Results and flags in numbers -/

theorem carryFlag_toNat (a b : Byte) : (carryFlag a b).toNat = if a.toNat + b.toNat > 255 then 1 else 0 := by
  simp [carryFlag, flagOf_toNat]

theorem noBorrowFlag_toNat (a b : Byte) : (noBorrowFlag a b).toNat = if a.toNat ≥ b.toNat then 1 else 0 := by
  simp [noBorrowFlag, flagOf_toNat]

/-- The difference modulo 256. -/
theorem byte_sub_toNat (a b : Byte) : (a - b).toNat = (a.toNat + 256 - b.toNat) % 256 := by
  bv_omega

/-- A shift to the right divides by 2. -/
theorem byte_shiftRight_toNat (a : Byte) : (a >>> 1).toNat = a.toNat / 2 := by
  bv_omega

/-- A shift to the left multiplies by 2 modulo 256. -/
theorem byte_shiftLeft_toNat (a : Byte) : (a <<< 1).toNat = a.toNat * 2 % 256 := by
  bv_omega

/-! ### The obligations -/

/-- Settles O22: the sum of bytes wraps, and the flag is its carry. -/
theorem addRegisterSetsCarry : Obligations.AddRegisterSetsCarry := fun x y _ hx =>
  finishFlagged_toNat (exec_addReg x y) hx (BitVec.toNat_add ..) (carryFlag_toNat ..)

/-- Settles O23: both differences wrap, and the flag compares minuend and subtrahend. -/
theorem subtractionsSetNoBorrow : Obligations.SubtractionsSetNoBorrow := fun x y _ hx =>
  ⟨finishFlagged_toNat (exec_sub x y) hx (byte_sub_toNat ..) (noBorrowFlag_toNat ..),
    finishFlagged_toNat (exec_subn x y) hx (byte_sub_toNat ..) (noBorrowFlag_toNat ..)⟩

/-- Settles O24: the shifts read `V[x]` alone, and the flag is the bit each loses. -/
theorem shiftsMoveLostBitToFlag : Obligations.ShiftsMoveLostBitToFlag := fun x y _ hx =>
  ⟨finishFlagged_toNat (exec_shr x y) hx (byte_shiftRight_toNat _) (shrFlag_toNat _),
    finishFlagged_toNat (exec_shl x y) hx (byte_shiftLeft_toNat _) (shlFlag_toNat _)⟩

/-- Settles O25: each of the five finishes with its flag, written last. -/
theorem flagWinsInVf : Obligations.FlagWinsInVf := by
  rintro y s i flag (⟨rfl, rfl⟩ | ⟨rfl, rfl⟩ | ⟨rfl, rfl⟩ | ⟨rfl, rfl⟩ | ⟨rfl, rfl⟩)
  · exact finishFlagged_vf_toNat (exec_addReg 15 y) (carryFlag_toNat ..)
  · exact finishFlagged_vf_toNat (exec_sub 15 y) (noBorrowFlag_toNat ..)
  · exact finishFlagged_vf_toNat (exec_subn 15 y) (noBorrowFlag_toNat ..)
  · exact finishFlagged_vf_toNat (exec_shr 15 y) (shrFlag_toNat _)
  · exact finishFlagged_vf_toNat (exec_shl 15 y) (shlFlag_toNat _)

/-- Settles O36: RND finishes, from the state with the draw counted, with the free byte under the mask. -/
theorem randomByteUnderMask : Obligations.RandomByteUnderMask := by
  intro x kk s
  obtain ⟨t, hexec, hpc, hbits, hother, -⟩ :=
    finishReg_bits (s := s.drawn) (x := x) (r := rndResult (rndInput s) kk) rfl fun _ => BitVec.getLsbD_and
  cases hexec
  exact ⟨_, rfl, hbits, rfl, hpc, hother, sameExcept_drawn_setRegs_advance s _⟩

end Sys2Proof.Machine
end

section
/-! PROOF. The index register, the memory transfers (spec/43_memory_index.md) and the key skips (spec/45_input.md). -/

namespace Sys2Proof.Machine

variable {s : State}

theorem exec_addI (x : Nibble) : exec (.addI x) s = .next (s.setI (s.i + regOperand16 s x)).advance := rfl

theorem exec_ldF (x : Nibble) : exec (.ldF x) s = .next (s.setI (glyphAddress s x)).advance := rfl

/-- The glyph address does not wrap: five times a byte fits 16 bits. -/
theorem glyphAddress_toNat (x : Nibble) : (glyphAddress s x).toNat = 5 * (s.reg x).toNat := by
  rw [glyphAddress, BitVec.toNat_add, BitVec.toNat_mul, regOperand16_toNat]
  simp
  omega

/-- The latch of a key number that a register holds. -/
theorem keyLatched_reg {x : Nibble} {k : Fin 16} (h : (s.reg x).toNat = k.val) :
    keyLatched s (s.reg x).toNat = s.keys[k] := by
  rw [h]
  exact keyLatched_of_lt k.isLt

/-- Settles O27: the sum of two 16-bit words wraps modulo 65536. -/
theorem addIndexWrapsWithoutFlag : Obligations.AddIndexWrapsWithoutFlag := fun x s =>
  ⟨_, exec_addI x, by rw [State.advance_i, State.setI_i, BitVec.toNat_add, regOperand16_toNat], rfl,
    sameExcept_setI_advance s _⟩

/-- Settles O28: `I` takes the glyph address of the whole register. -/
theorem fontAddressIsFiveTimesRegister : Obligations.FontAddressIsFiveTimesRegister := fun x s =>
  ⟨_, exec_ldF x, glyphAddress_toNat x, rfl, sameExcept_setI_advance s _⟩

/-- Settles O29: the digits the store leaves, and the check of LD B. -/
theorem bcdStoresThreeDigits : Obligations.BcdStoresThreeDigits := by
  refine fun x s hwf => ⟨fun hfits => ?_, fun hout => exec_haltsWith (if_pos hout)⟩
  obtain ⟨hundreds, -, -⟩ := bcdStored_read_toNat (x := x) hwf hfits (baseAddress s)
  obtain ⟨-, htens, -⟩ := bcdStored_read_toNat (x := x) hwf hfits (baseAddress s + 1)
  obtain ⟨-, -, hones⟩ := bcdStored_read_toNat (x := x) hwf hfits (baseAddress s + 2)
  exact ⟨_, exec_ldB_of_fits hfits, hundreds rfl, htens rfl, hones rfl,
    fun a ha => bcdStored_read_outside (by simp only [baseAddress] at ha; omega), rfl, sameExcept_setMem_advance s _⟩

/-- Settles O30: the bytes the store leaves, and the check of LD [I], Vx. -/
theorem bulkStoreWritesRegisters : Obligations.BulkStoreWritesRegisters := by
  refine fun x s hwf => ⟨fun hfits => ?_, fun hout => exec_haltsWith (if_pos hout)⟩
  exact ⟨_, exec_ldMemVx_of_fits hfits, fun j hj => bulkStored_read_stored hwf hfits hj rfl,
    fun a ha => bulkStored_read_outside (by simp only [baseAddress] at ha; omega), rfl, sameExcept_setMem_advance s _⟩

/-- Settles O31: the registers the load leaves, and the check of LD Vx, [I]. -/
theorem bulkLoadReadsRegisters : Obligations.BulkLoadReadsRegisters := by
  refine fun x s => ⟨fun hfits => ?_, fun hout => exec_haltsWith (if_pos hout)⟩
  exact ⟨_, exec_ldVxMem_of_fits hfits, bulkLoaded_reg s x, rfl, sameExcept_setRegs_advance s _⟩

/-- Settles O34: the skips test the latch of the register's key number, which their check bounds. -/
theorem keySkipsReadOneLatch : Obligations.KeySkipsReadOneLatch := by
  refine fun x s => ⟨fun k hk => ?_, fun hout => ⟨exec_haltsWith (if_pos hout), exec_haltsWith (if_pos hout)⟩⟩
  have hlt : (s.reg x).toNat < 16 := by omega
  refine ⟨⟨_, exec_skp_of_lt hlt, ?_, sameExcept_skipIf s _⟩, ⟨_, exec_sknp_of_lt hlt, ?_, sameExcept_skipIf s _⟩⟩
  · rw [State.skipIf_pc, keyLatched_reg hk]
  · rw [State.skipIf_pc, keyLatched_reg hk]
    cases s.keys[k] <;> rfl

end Sys2Proof.Machine
end

section
/-! PROOF. The sprite DRW draws (spec/46_display.md, R111): the pixels it toggles are those its 1 bits reach. -/

namespace Sys2Proof.Machine

variable {s : State} {x y n : Nibble}

/-- The rows of the sprite, read from memory, reach the pixels R111 names. -/
theorem rowsReach_spriteBytes (px : Fin 64) (py : Fin 32) :
    RowsReach (spriteBytes s n) (s.reg x).toNat (s.reg y).toNat px py ↔ SpriteCovers s x y n px py := by
  have hlength : (spriteBytes s n).length = n.toNat := Memory.length_readBytes ..
  have hbyte (r : Nat) (hr : r < (spriteBytes s n).length) : (spriteBytes s n)[r] = s.mem.read (s.i.toNat + r) :=
    Memory.getElem_readBytes ..
  constructor
  · rintro ⟨r, hr, c, hc, hbit, hpx, hpy⟩
    exact ⟨r, c, hlength ▸ hr, hc, hbyte r hr ▸ hbit, hpx, hpy⟩
  · rintro ⟨r, c, hr, hc, hbit, hpx, hpy⟩
    have hr' : r < (spriteBytes s n).length := hlength ▸ hr
    exact ⟨r, hr', c, hc, (hbyte r hr').symm ▸ hbit, hpx, hpy⟩

/-- A sprite toggles exactly the pixels its 1 bits reach. -/
theorem pixel_drawSprite_ne_iff (px : Fin 64) (py : Fin 32) :
    Framebuffer.pixel (drawSprite x y n s).1 px py ≠ Framebuffer.pixel s.fb px py ↔ SpriteCovers s x y n px py := by
  have hheight : (spriteBytes s n).length ≤ 15 := by
    rw [spriteBytes, Memory.length_readBytes]
    omega
  obtain ⟨htoggled, -⟩ := drawRows_spec (spriteBytes s n) (s.reg x).toNat (s.reg y).toNat hheight (s.fb, false)
  exact (htoggled px py).trans (rowsReach_spriteBytes px py)

/-- Settles O39: the framebuffer DRW leaves is that of the sprite, and the check of DRW. -/
theorem drawTogglesExactlyTheSprite : Obligations.DrawTogglesExactlyTheSprite := by
  refine fun x y n s => ⟨fun hfits => ?_, fun hout => exec_haltsWith (if_pos hout)⟩
  refine ⟨_, exec_drw_of_fits hfits, pixel_drawSprite_ne_iff, rfl, fun j hj => ?_,
    sameExcept_setFb_setRegs_advance s _ _⟩
  rw [State.advance_reg, State.setReg_reg]
  exact if_neg hj

end Sys2Proof.Machine
end

section
/-! PROOF. The host's side (spec/70_reset_and_hazards.md, 10_state.md): reset with an image, the key latches, the read
port of the framebuffer, and placing a word where the step fetches. -/

namespace Sys2Proof.Machine

variable {s : State}

/-! ### Reset with an image -/

theorem create_of_le {image : List Byte} (h : image.length ≤ 3584) :
    State.create image = .ok (State.reset.setMem (State.reset.mem.writeBytes progBase image)) :=
  if_neg (Nat.not_lt.mpr h)

theorem create_of_gt {image : List Byte} (h : 3584 < image.length) : State.create image = .error .programTooLarge :=
  if_pos h

/-- Byte `k` of an image that fits stands at address `512 + k`. -/
theorem created_read_image {image : List Byte} (h : image.length ≤ 3584) (k : Nat) (hk : k < image.length) :
    (State.reset.mem.writeBytes progBase image).read (512 + k) = image[k] :=
  Memory.read_writeBytes_inside Memory.wf_reset 512 image (by simp only [memSize]; omega) k hk

/-- Outside the image memory holds its reset bytes. -/
theorem created_read_outside (image : List Byte) (a : Nat) (h : a < 512 ∨ 512 + image.length ≤ a) :
    (State.reset.mem.writeBytes progBase image).read a = resetByte a :=
  Memory.read_writeBytes_outside _ _ _ _ h

theorem resetByte_of_lt {a : Nat} (h : a < 80) : resetByte a = params.font.getD a 0 := if_pos h

theorem resetByte_of_ge {a : Nat} (h : 80 ≤ a) : resetByte a = 0 := if_neg (Nat.not_lt.mpr h)

theorem reset_reg (j : Nibble) : State.reset.reg j = 0 := by
  simp [State.reg, State.reset]

/-- Settles O44: reset with an image is `State.reset` but for the image's bytes. -/
theorem createGivesResetState : Obligations.CreateGivesResetState := by
  intro image hlen
  refine ⟨_, create_of_le hlen, reset_reg, rfl, rfl, rfl, fun j => by simp [State.reset], rfl, rfl,
    Framebuffer.pixel_blank, fun k => by simp [State.reset], rfl, rfl, created_read_image hlen, fun a ha => ?_,
    fun a hfont himage => ?_⟩
  · exact (created_read_outside image a (.inl (by omega))).trans (resetByte_of_lt ha)
  · exact (created_read_outside image a himage).trans (resetByte_of_ge hfont)

/-- Settles O45: reset checks the length of the image and nothing else. -/
theorem createRefusesLargeImage : Obligations.CreateRefusesLargeImage :=
  fun _ => ⟨create_of_gt, fun hlen => ⟨_, create_of_le hlen⟩⟩

/-! ### Keys and pixels -/

/-- New key latches write nothing else. -/
theorem sameExcept_setKeys (s : State) (val : Vector Bool 16) : SameExcept [.keys] s (s.setKeys val) := by
  intro part hpart
  cases part with
  | keys => simp at hpart
  | regs | mem => exact fun _ => rfl
  | i | pc | sp | stack | dt | st | fb | ir | status | draws => rfl

theorem setKey_of_lt {index : Nat} (h : index < 16) :
    setKey index s = .ok (s.setKeys (s.keys.setIfInBounds index true)) := if_pos h

theorem setKey_of_ge {index : Nat} (h : 16 ≤ index) : setKey index s = .error .keyIndexOutOfRange :=
  if_neg (Nat.not_lt.mpr h)

/-- The latches with one of them set. -/
theorem latched_getElem (keys : Vector Bool 16) (index : Nat) (k : Fin 16) :
    (keys.setIfInBounds index true)[k] = (decide (k.val = index) || keys[k]) := by
  rw [Fin.getElem_fin, Vector.getElem_setIfInBounds]
  by_cases h : index = k.val
  · simp [h]
  · simp [h, Ne.symm h]

/-- Settles O46: both ways to set keys replace the latches alone. -/
theorem setKeyLatchesOneKey : Obligations.SetKeyLatchesOneKey := by
  refine fun s index => ⟨fun h => ?_, setKey_of_ge, fun bits => ⟨fun k => ?_, sameExcept_setKeys s _⟩⟩
  · exact ⟨_, setKey_of_lt h, latched_getElem s.keys index, sameExcept_setKeys s _⟩
  · simp [keySetPort]

/-- Settles O47: inside the bounds the two reductions change nothing. -/
theorem readPixelFailsOutside : Obligations.ReadPixelFailsOutside := by
  refine fun s => ⟨fun px py => ?_, fun x y hout => ?_⟩
  · simp [readPixel]
  · exact if_neg (by simp only [displayWidth, displayHeight]; omega)

/-! ### Placing a word -/

/-- New memory writes nothing else. -/
theorem sameExcept_setMem (s : State) (m : Memory) : SameExcept [.mem] s (s.setMem m) := by
  intro part hpart
  cases part with
  | mem => simp at hpart
  | regs => exact fun _ => rfl
  | i | pc | sp | stack | dt | st | fb | keys | ir | status | draws => rfl

/-- Inside memory placing a word of 16 bits writes its two bytes at `PC`. -/
theorem withFetchWord_of_lt {w : Nat} (hpc : s.pc.toNat + 1 < 4096) (hw : w < 65536) :
    s.withFetchWord 16 w = s.setMem (s.mem.writeBytes s.pc.toNat
      [highByte (BitVec.ofNat 16 w), lowByte (BitVec.ofNat 16 w)]) := by
  have hmod : w % 2 ^ 16 = w := Nat.mod_eq_of_lt hw
  rw [State.withFetchWord, hmod, placeWord_of_lt _ hpc]

/-- Two bytes written at `PC` are the two bytes fetched. -/
theorem fetch_setMem_writeBytes (hwf : s.mem.wf = true) (hpc : s.pc.toNat + 1 < 4096) (hi lo : Byte) :
    fetch (s.setMem (s.mem.writeBytes s.pc.toNat [hi, lo])) = some (wordOfBytes hi lo) := by
  have hread := Memory.read_writeBytes_inside hwf s.pc.toNat [hi, lo] hpc
  have hhi : (s.mem.writeBytes s.pc.toNat [hi, lo]).read s.pc.toNat = hi := hread 0 (by simp)
  have hlo : (s.mem.writeBytes s.pc.toNat [hi, lo]).read (s.pc.toNat + 1) = lo := hread 1 (by simp)
  rw [fetch_of_lt (by exact hpc), State.setMem_pc, State.setMem_mem, hhi, hlo]

/-- Settles O48: the two bytes placed are the two bytes fetched, and they make the word again. -/
theorem placedWordIsFetched : Obligations.PlacedWordIsFetched := by
  intro s w hwf hpc hw
  rw [withFetchWord_of_lt hpc hw]
  refine ⟨?_, sameExcept_setMem s _, fun a hlow hhigh => ?_⟩
  · rw [fetch_setMem_writeBytes hwf hpc, wordOfBytes_bytes]
  · exact Memory.read_writeBytes_outside _ _ _ _ (by simp only [List.length_cons, List.length_nil]; omega)

end Sys2Proof.Machine
end
